-- ==== Sys2Proof/Word.lean ====
section
/-!
DEFINITION. The block's plain data: bytes, digit addresses, lines, levels, pin events, and four like things kept by
digit address (spec 00_scope.md R7, R10, R12; 10_state.md R27).
-/

namespace Sys2Proof

/-- 8 bits, numbered from 0 at the least-significant end (R7). -/
abbrev Byte := BitVec 8

/-- A digit address: 0 (leftmost) to 3 (rightmost) (R12, R44). -/
abbrev Addr := BitVec 2

/-- The two output lines (R10, R12). -/
inductive Line where
  | clk
  | dio
deriving DecidableEq, Repr

/-- What a line-level register holds: "0, 1, or unknown" (R27). -/
inductive Level where
  | low
  | high
  | unknown
deriving DecidableEq, Repr

/-- The level a driven 0 or 1 is. -/
def Level.ofBit : Bool → Level
  | false => .low
  | true => .high

/-- A pin event: one call of the output primitive, a line and the level it is asked to take (R10, R12). -/
structure PinEvent where
  line : Line
  level : Bool
deriving DecidableEq, Repr

/-- `C0`, a drive of the clock line to 0 (R10). -/
abbrev c0 : PinEvent := ⟨.clk, false⟩
/-- `C1`, a drive of the clock line to 1 (R10). -/
abbrev c1 : PinEvent := ⟨.clk, true⟩
/-- `D0`, a drive of the data line to 0 (R10). -/
abbrev d0 : PinEvent := ⟨.dio, false⟩
/-- `D1`, a drive of the data line to 1 (R10). -/
abbrev d1 : PinEvent := ⟨.dio, true⟩

/-- Four like things, one for each digit address (R21, R46). -/
structure Quad (α : Type) where
  at0 : α
  at1 : α
  at2 : α
  at3 : α
deriving DecidableEq, Repr

/-- The four digit addresses, ascending (R12). -/
abbrev allAddrs : List Addr := [0, 1, 2, 3]

end Sys2Proof
end

