-- ==== Sys2Proof/Machine/SegRom.lean ====
section
/-!
DEFINITION. The segment table SEGROM and the constants that go with it (spec 20_memory.md R41, 00_scope.md R6).
-/

namespace Sys2Proof.Machine

/-- BLANK, the blank sentinel: a digit value, not a segment code (R6). -/
def blankDigit : Byte := 0x7F

/-- POINT_BIT, the point overlay (R6). -/
def pointBit : Byte := 0x80

/-- The sixteen segment codes, index 0 first (R41). -/
def segRomTable : List Byte :=
  [0x3F, 0x06, 0x5B, 0x4F, 0x66, 0x6D, 0x7D, 0x07, 0x7F, 0x6F, 0x77, 0x7C, 0x39, 0x5E, 0x79, 0x71]

/-- `SEGROM[d]`, also written `MemRead(SEGROM, d, 1)`, 0 ≤ d ≤ 15 (R9, R41). -/
def segRom (d : BitVec 4) : Byte := segRomTable.getD d.toNat 0

end Sys2Proof.Machine
end

