-- ==== Sys2Proof/Config.lean ====
section
/-!
DEFINITION. What is fixed for one block: the parameters of spec 00_scope.md R6 that the source leaves open, and the pin
identifiers of 10_state.md R25. The values State.reset takes are Config.default, in Machine/Defaults.lean. NUM_W is 16
(log 6). The block has no free value: no rule gives an operation a result it leaves open.
-/

namespace Sys2Proof

/-- NUM_W, the width of SHOW's operand in the command word (R6, R68: "defined for NUM_W = 16 only"). -/
abbrev numW : Nat := 16

/-- The parameters of a block (R6, R25). They are held in State because exec takes nothing else, so that a statement
holds for every legal value; no operation changes them. -/
structure Config where
  /-- SHOW_ORDER: the order in which SHOW writes the four addresses (D8). -/
  showOrder : List Addr
  /-- CLEAR_ORDER: the order in which CLEAR and CREATE write them (D9). -/
  clearOrder : List Addr
  /-- REFRESH_ORDER: the order in which BRIGHT and POINT re-write them (D9). -/
  refreshOrder : List Addr
  /-- SETDIGIT_BLANK_OK: whether SETDIGIT accepts the value 0x7F (D10). -/
  setDigitBlankOk : Bool
  /-- CLK_PIN: the host platform's identifier of the clock line (D7). -/
  clkPin : Nat
  /-- DIO_PIN: the host platform's identifier of the data line (D7). -/
  dioPin : Nat
deriving DecidableEq, Repr

/-- The range column of R6: each order is a permutation of the four addresses and the two identifiers differ. -/
abbrev Config.Legal (c : Config) : Prop :=
  c.showOrder.Perm allAddrs ∧ c.clearOrder.Perm allAddrs ∧ c.refreshOrder.Perm allAddrs ∧ c.clkPin ≠ c.dioPin

end Sys2Proof
end

