-- ==== Sys2Proof/Syntax.lean ====
section
/-!
DEFINITION. The instruction set, whole: the six host operations in the abstract form of spec 30_encoding.md R67 and the
four wire bytes of R61 to R64, one constructor for each row of opcode_table.json; and the two forms an encoded
instruction has (R60).
-/

namespace Sys2Proof

/-- One constructor for each row of opcode_table.json. -/
inductive Instr where
  /-- CREATE: no operands, the pins being wiring (R67, R111). -/
  | create
  /-- SHOW n: an unsigned number; R113 is stated for every natural number, the width NUM_W being a parameter (D4). -/
  | showNumber (n : Nat)
  /-- SETDIGIT a, v: operands wider than their legal ranges, so that there is something to reject (R67, R116). -/
  | setDigit (a : BitVec 8) (v : BitVec 16)
  /-- BRIGHT l: exactly as wide as its legal range (R67, R118). -/
  | setBright (l : BitVec 3)
  /-- POINT p: one bit (R67, R120). -/
  | setPoint (p : Bool)
  /-- CLEAR: no operands (R67, R122). -/
  | clear
  /-- WIRE.DATACMD: format WD, the only byte of TXA (R61, R101). -/
  | wireDataCmd
  /-- WIRE.ADDRCMD: format WA, the first byte of TXB (R62, R102). -/
  | wireAddrCmd (a : BitVec 2)
  /-- WIRE.SEGDATA: format WS, the second byte of TXB: the point bit and the seven segment bits (R64, R102). -/
  | wireSegData (p : Bool) (s : BitVec 7)
  /-- WIRE.DISPCTL: format WC, the only byte of TXC (R63, R103). -/
  | wireDispCtl (b : BitVec 3)
deriving DecidableEq, Repr

/-- The six host operations, which the host issues; the other four rows are bytes the block sends (R60). -/
def Instr.isHost : Instr → Bool
  | .create => true
  | .showNumber _ => true
  | .setDigit _ _ => true
  | .setBright _ => true
  | .setPoint _ => true
  | .clear => true
  | .wireDataCmd => false
  | .wireAddrCmd _ => false
  | .wireSegData _ _ => false
  | .wireDispCtl _ => false

/-- An encoded instruction: a 32-bit command word (R68) or a wire byte (R61 to R64). -/
inductive Code where
  | command (w : BitVec 32)
  | wire (b : Byte)
deriving DecidableEq, Repr

/-- The place of a byte in its frame, which alone decides whether it is a command or a segment byte (R65). -/
inductive Position where
  | command
  | segment
deriving DecidableEq, Repr

end Sys2Proof
end

