-- ==== Sys2Proof/WellFormed.lean ====
section
/-!
DEFINITION. Which instructions are well formed: what the operand types do not already rule out. SHOW's number fits in
NUM_W bits (spec 30_encoding.md R67), and a segment byte's seven bits are all 0 or those of a SEGROM entry (R64).
-/

namespace Sys2Proof

/-- R64: "either all 0 (blank) or bits 6 to 0 of a SEGROM entry". -/
def segmentBitsLegal (s : BitVec 7) : Bool :=
  s == 0 || Machine.segRomTable.any (fun e => e.setWidth 7 == s)

/-- The operands of the instruction are ones its row of the table can carry. -/
def Instr.wellFormed : Instr → Bool
  | .create => true
  | .showNumber n => decide (n < 2 ^ numW)
  | .setDigit _ _ => true
  | .setBright _ => true
  | .setPoint _ => true
  | .clear => true
  | .wireDataCmd => true
  | .wireAddrCmd _ => true
  | .wireSegData _ s => segmentBitsLegal s
  | .wireDispCtl _ => true

end Sys2Proof
end

