-- ==== Sys2Proof/Decode.lean ====
section
/-!
DEFINITION. Decoding and encoding: the 32-bit command word of spec 30_encoding.md R68 and R69, the wire bytes of R61 to
R64 told apart by their place in the frame (R65), and the encoder. Reserved words and bytes are rejected by name (R71,
R73).
-/

namespace Sys2Proof

/-- Why a word or a byte is no instruction. The block answers every rejected word alike (R71, R133; log 18). -/
inductive DecodeError where
  /-- OP in 0x6 to 0xF (R71). -/
  | reservedOp
  /-- A nonzero ZERO field (R71). -/
  | zeroField
  /-- A nonzero field that the operation does not use (R71). -/
  | unusedField
  /-- A BRIGHT word with any of N[15:3] set (R71). -/
  | levelBits
  /-- A POINT word with any of N[15:1] set (R71). -/
  | flagBits
  /-- A byte that the block never sends in command position (R73). -/
  | neverSent
deriving DecidableEq, Repr

/-- OP, bits 31:28 of a command word (R68). -/
def opField (w : BitVec 32) : BitVec 4 := w.extractLsb' 28 4
/-- ZERO, bits 27:24 (R68). -/
def zeroField (w : BitVec 32) : BitVec 4 := w.extractLsb' 24 4
/-- A, bits 23:16 (R68). -/
def aField (w : BitVec 32) : BitVec 8 := w.extractLsb' 16 8
/-- N, bits 15:0 (R68). -/
def nField (w : BitVec 32) : BitVec 16 := w.extractLsb' 0 16

/-- Decoding a command word, total on all 2^32 words (R69); the fields are those of R68. -/
def decode (w : BitVec 32) : Except DecodeError Instr :=
  if zeroField w ≠ 0 then .error .zeroField
  else if opField w = 0x0 then
    if aField w = 0 ∧ nField w = 0 then .ok .create else .error .unusedField
  else if opField w = 0x1 then
    if aField w = 0 then .ok (.showNumber (nField w).toNat) else .error .unusedField
  else if opField w = 0x2 then .ok (.setDigit (aField w) (nField w))
  else if opField w = 0x3 then
    if aField w ≠ 0 then .error .unusedField
    else if (nField w).extractLsb' 3 13 = 0 then .ok (.setBright ((nField w).extractLsb' 0 3)) else .error .levelBits
  else if opField w = 0x4 then
    if aField w ≠ 0 then .error .unusedField
    else if (nField w).extractLsb' 1 15 = 0 then .ok (.setPoint ((nField w).getLsbD 0)) else .error .flagBits
  else if opField w = 0x5 then
    if aField w = 0 ∧ nField w = 0 then .ok .clear else .error .unusedField
  else .error .reservedOp

/-- DATA_CMD, the data command byte of format WD (R6, R61). -/
def dataCmd : Byte := 0x44
/-- ADDR_BASE, the base of format WA (R6, R62). -/
def addrBase : Byte := 0xC0
/-- CTRL_BASE, the base of format WC (R6, R63). -/
def ctrlBase : Byte := 0x88

/-- The address command byte, `address | 0xC0` (R62, R66). -/
def addrByte (a : Addr) : Byte := a.setWidth 8 ||| addrBase
/-- The display-control byte, `0x88 + BRIGHT` (R63, R66). -/
def ctrlByte (b : BitVec 3) : Byte := ctrlBase + b.setWidth 8
/-- The segment byte with point bit p and segment bits s (R64). -/
def segByte (p : Bool) (s : BitVec 7) : Byte := BitVec.ofBool p ++ s

/-- The instruction a wire byte is in its place of a frame: first byte a command, second byte of TXB a segment byte
(R65). Thirteen values stand in command position (R73). -/
def decodeWire (pos : Position) (b : Byte) : Except DecodeError Instr :=
  match pos with
  | .segment => .ok (.wireSegData (b.getLsbD 7) (b.extractLsb' 0 7))
  | .command =>
    if b = dataCmd then .ok .wireDataCmd
    else if b.extractLsb' 2 6 = 0b110000 then .ok (.wireAddrCmd (b.extractLsb' 0 2))
    else if b.extractLsb' 3 5 = 0b10001 then .ok (.wireDispCtl (b.extractLsb' 0 3))
    else .error .neverSent

/-- Decoding either form of encoded instruction. -/
def decodeCode (pos : Position) : Code → Except DecodeError Instr
  | .command w => decode w
  | .wire b => decodeWire pos b

/-- The place an instruction's byte has in its frame (R65); a command word has no place, and the answer is not used. -/
def Instr.position : Instr → Position
  | .create => .command
  | .showNumber _ => .command
  | .setDigit _ _ => .command
  | .setBright _ => .command
  | .setPoint _ => .command
  | .clear => .command
  | .wireDataCmd => .command
  | .wireAddrCmd _ => .command
  | .wireSegData _ _ => .segment
  | .wireDispCtl _ => .command

/-- Format H: OP, ZERO = 0, A, N (R68). -/
def commandWord (op : BitVec 4) (a : BitVec 8) (n : BitVec 16) : BitVec 32 := op ++ (0 : BitVec 4) ++ a ++ n

/-- The words and bytes of the instructions, from the tables of R68 and R61 to R64. -/
def encode : Instr → Code
  | .create => .command (commandWord 0x0 0 0)
  | .showNumber n => .command (commandWord 0x1 0 (BitVec.ofNat 16 n))
  | .setDigit a v => .command (commandWord 0x2 a v)
  | .setBright l => .command (commandWord 0x3 0 (l.setWidth 16))
  | .setPoint p => .command (commandWord 0x4 0 ((BitVec.ofBool p).setWidth 16))
  | .clear => .command (commandWord 0x5 0 0)
  | .wireDataCmd => .wire dataCmd
  | .wireAddrCmd a => .wire (addrByte a)
  | .wireSegData p s => .wire (segByte p s)
  | .wireDispCtl b => .wire (ctrlByte b)

/-- A byte that is one of the block's thirteen command bytes stands in command position; any other can only be a
segment byte. No segment byte the encoder produces is one of the thirteen, so on bytes the block sends this is their
place (R65, R73). -/
def naturalPosition (b : Byte) : Position :=
  match decodeWire .command b with
  | .ok _ => .command
  | .error _ => .segment

/-- The instruction the decoder reads from a word numbered as opcode_table.json numbers it: 32 bits are a command word,
8 bits a wire byte in the place it can have; no row has another width. -/
def decodeTableWord (nbits w : Nat) : Option Instr :=
  if nbits = 32 then (decode (BitVec.ofNat 32 w)).toOption
  else if nbits = 8 then (decodeWire (naturalPosition (BitVec.ofNat 8 w)) (BitVec.ofNat 8 w)).toOption
  else none

/-- A row of opcode_table.json, as a mask and a match: a word w selects it exactly when `w & mask = match` (R68). -/
structure TableRow where
  mask : BitVec 32
  value : BitVec 32
deriving DecidableEq, Repr

/-- The six rows of format H, in the table's order (R68). -/
def commandRows : List TableRow :=
  [⟨0xFFFFFFFF, 0x00000000⟩, ⟨0xFFFF0000, 0x10000000⟩, ⟨0xFF000000, 0x20000000⟩,
   ⟨0xFFFFFFF8, 0x30000000⟩, ⟨0xFFFFFFFE, 0x40000000⟩, ⟨0xFFFFFFFF, 0x50000000⟩]

/-- The table row of each instruction: its mask and match (R61 to R64, R68), a byte row's in the low 8 bits. -/
def Instr.row : Instr → TableRow
  | .create => ⟨0xFFFFFFFF, 0x00000000⟩
  | .showNumber _ => ⟨0xFFFF0000, 0x10000000⟩
  | .setDigit _ _ => ⟨0xFF000000, 0x20000000⟩
  | .setBright _ => ⟨0xFFFFFFF8, 0x30000000⟩
  | .setPoint _ => ⟨0xFFFFFFFE, 0x40000000⟩
  | .clear => ⟨0xFFFFFFFF, 0x50000000⟩
  | .wireDataCmd => ⟨0xFF, 0x44⟩
  | .wireAddrCmd _ => ⟨0xFC, 0xC0⟩
  | .wireSegData _ _ => ⟨0x00, 0x00⟩
  | .wireDispCtl _ => ⟨0xF8, 0x88⟩

/-- The bits of an encoded instruction as the table numbers them. -/
def Code.bits : Code → BitVec 32
  | .command w => w
  | .wire b => b.setWidth 32

/-- A code selects a row (R68). -/
def TableRow.selectedBy (r : TableRow) (c : Code) : Bool := (c.bits &&& r.mask) == r.value

end Sys2Proof
end

