-- ==== Sys2Proof/Machine/Defaults.lean ====
section
/-!
DEFINITION. The values State.reset gives the parameters (spec 00_scope.md R6, the column "default").
-/

namespace Sys2Proof.Machine

/-- The defaults of R6. The two pin identifiers have none there ("opaque, supplied by the platform"): any two distinct
identifiers do, and 0 and 1 are the model's (log 2, DESIGN CHOICE). -/
def defaultConfig : Config where
  showOrder := [3, 2, 1, 0]
  clearOrder := [0, 1, 2, 3]
  refreshOrder := [0, 1, 2, 3]
  setDigitBlankOk := false
  clkPin := 0
  dioPin := 1

end Sys2Proof.Machine
end

