-- ==== Sys2Proof/Machine/State.lean ====
section
/-!
DEFINITION. The state of the machine, plain data: the eight items of spec 10_state.md R20, the observer's chip shadow of
20_memory.md R46, the configuration of 00_scope.md R6, and the three fields of the model's own (bracket, statuses, port;
log 3, 4, 5). The block has no memory besides BUF (20_memory.md R40), so there is no list of memory cells.
-/

namespace Sys2Proof.Machine

/-- The sequencer position: idle, or the number of events already emitted of the operation in progress (R26). -/
inductive Seq where
  | idle
  | running (k : Nat)
deriving DecidableEq, Repr

/-- Why an operation is refused (R133, R134). The host sees the status code alone. -/
inductive RefuseReason where
  | notCreated
  | reservedEncoding
deriving DecidableEq, Repr

/-- The answer to one host operation (R70, R132). -/
inductive Status where
  | ok
  | invalidArgument
  | refused (reason : RefuseReason)
deriving DecidableEq, Repr

/-- What can be presented to the block: the reset input or an encoded instruction (R136, R165). A wire byte is no
operation of the host's: it stands for the sequencer's own next byte (log 7). -/
inductive Input where
  | reset
  | code (c : Code)
deriving DecidableEq, Repr

/-- The chip shadow, an observer's: what the chip has been told, `none` where that is unknown (R46). -/
structure Chip where
  /-- DISP[0..3], the segment byte last written to each digit address. -/
  disp : Quad (Option Byte)
  /-- DISP_ON. -/
  on : Option Bool
  /-- DISP_BR. -/
  bright : Option (BitVec 3)
deriving DecidableEq, Repr

/-- "All are unknown at reset" (R46). -/
def Chip.unknown : Chip := ⟨⟨none, none, none, none⟩, none, none⟩

/-- The state of the machine. -/
structure State where
  /-- The parameters, which no operation changes (R6, R25). -/
  cfg : Config
  /-- CREATED: whether CREATE has run since reset (R24). -/
  created : Bool
  /-- BRIGHT: the current brightness level (R22). -/
  bright : BitVec 3
  /-- POINT: the current point flag (R23). -/
  point : Bool
  /-- BUF[0..3]: the digit value last written to each address (R21). -/
  buf : Quad Byte
  /-- SEQ (R26). -/
  seq : Seq
  /-- CLK: the level last driven on the clock line (R27). -/
  clk : Level
  /-- DIO: the level last driven on the data line (R27). -/
  dio : Level
  /-- TRACE: every pin event since reset, oldest first (R28). -/
  trace : List PinEvent
  /-- The bytes sent since the START of the bracket that is open, `none` when none is open (R65, R84; log 3). -/
  bracket : Option (List Byte)
  /-- The observer's chip shadow (R46). -/
  chip : Chip
  /-- The statuses yielded since reset, oldest first: the list of R154, the host's own (log 4). -/
  statuses : List Status
  /-- What is going to be presented to the block, the next first (R165; log 5). -/
  port : List Input
deriving DecidableEq, Repr

/-- The faults a step can stop with. -/
inductive Fault where
  /-- Raised by exec and by the reset input when an operation is in progress: the spec gives "no step" (R158, U8; log 12).
  Safe: the model stops where the spec has no run. -/
  | operationInProgress
deriving DecidableEq, Repr

/-- The refusals a step can stop with. -/
inductive Refusal where
  /-- Raised by an arm of exec whose instruction has no meaning yet; no arm does. Safe. -/
  | notModelled (mnemonic : String)
  /-- Raised by WIRE.SEGDATA when no TXB bracket has its address byte sent: a byte outside its bracket, which the spec
  treats by `refuse` (U1, R85; log 8). Safe: no host operation gets there. -/
  | byteOutsideBracket
  /-- Raised by the fetch of a wire byte in command position that is none of the thirteen the block sends (R73; U15: a
  model of anything more must `refuse`; log 7). Safe. -/
  | neverSentByte
deriving DecidableEq, Repr

/-- The machine right after power-on (R32, R150). BRIGHT, POINT and BUF hold no value there and no rule reads them; the
zeros are the model's (log 1, DESIGN CHOICE). -/
def State.reset : State where
  cfg := defaultConfig
  created := false
  bright := 0
  point := false
  buf := ⟨0, 0, 0, 0⟩
  seq := .idle
  clk := .unknown
  dio := .unknown
  trace := []
  bracket := none
  chip := Chip.unknown
  statuses := []
  port := []

end Sys2Proof.Machine
end

