-- ==== Sys2Proof/Machine/Operands.lean ====
section
/-!
DEFINITION. Operands and the bytes made from them: access by digit address, the segment encoder ENC (spec
41_segment_encoder.md), SHOW's decimal decomposition and SETDIGIT's validity test (43_host_operations.md R113, R116).
-/

namespace Sys2Proof.Machine

/-- `BUF[i]`, or entry i of any four things kept by digit address (R8, R21). -/
def quadGet {α : Type} (q : Quad α) (a : Addr) : α :=
  if a = 0 then q.at0 else if a = 1 then q.at1 else if a = 2 then q.at2 else q.at3

/-- `BUF[i] <- v`: entry a becomes v and no other changes (R8, R21). -/
def quadSet {α : Type} (q : Quad α) (a : Addr) (v : α) : Quad α :=
  if a = 0 then { q with at0 := v } else if a = 1 then { q with at1 := v }
  else if a = 2 then { q with at2 := v } else { q with at3 := v }

/-- ENC(digit, pointFlag), `none` for `invalid`; the test for BLANK comes first (R91, R93). -/
def enc (digit : Byte) (pointFlag : Bool) : Option Byte :=
  let pointData : Byte := if pointFlag then pointBit else 0x00
  if digit = blankDigit then some pointData
  else if digit.toNat ≤ 15 then some (segRom (digit.setWidth 4) ||| pointData)
  else none

/-- A decimal digit of a number as a digit value. -/
def digitOf (n : Nat) : Byte := BitVec.ofNat 8 (n % 10)

/-- The four values SHOW writes, by address, from the band of n and truncating division (R113). -/
def showDigits (n : Nat) : Quad Byte :=
  let d3 := digitOf n
  let d2 := digitOf (n / 10)
  let d1 := digitOf (n / 100)
  let d0 := digitOf (n / 1000)
  if n < 10 then ⟨blankDigit, blankDigit, blankDigit, d3⟩
  else if n < 100 then ⟨blankDigit, blankDigit, d2, d3⟩
  else if n < 1000 then ⟨blankDigit, d1, d2, d3⟩
  else ⟨d0, d1, d2, d3⟩

/-- SETDIGIT's test of both operands: `a <= 3`, and `v <= 9` or, under SETDIGIT_BLANK_OK, `v = 0x7F` (R116). -/
def setDigitLegal (blankOk : Bool) (a : BitVec 8) (v : BitVec 16) : Bool :=
  decide (a.toNat ≤ 3) && (decide (v.toNat ≤ 9) || (blankOk && decide (v = 0x7F)))

/-- The host platform's call for a pin event: `setPin(pin(L), v)` (R10, R25). -/
def PinEvent.setPin (c : Config) (e : PinEvent) : Nat × Bool :=
  (match e.line with
    | .clk => c.clkPin
    | .dio => c.dioPin,
   e.level)

end Sys2Proof.Machine
end

