-- ==== Sys2Proof/Machine/Ops.lean ====
section
/-!
DEFINITION. The named operations over the state: emit (spec 00_scope.md R10), the bus primitives (40_bus_primitives.md),
the effect of a frame on the chip shadow (20_memory.md R47), the three transactions and DWRITE (42_digit_write.md), the
loops over the four addresses, the sequencer (10_state.md R26) and the reset input (70_reset_and_hazards.md R150). The
block takes no exception and returns from none (60_exceptions.md R131, R138): an operation that cannot be done answers a
status, in Machine/Flags.lean.
-/

namespace Sys2Proof.Machine

/-- One more event of the operation in progress emitted (R26; log 14). -/
def Seq.next : Seq → Seq
  | .idle => .idle
  | .running k => .running (k + 1)

/-- `emit(L, v)`: the event is appended to TRACE, the line's register takes the level, SEQ counts it (R10, R26, R27). An
event that repeats its line's level is an event all the same (R53). -/
def emit (e : PinEvent) (s : State) : State :=
  match e.line with
  | .clk => { s with trace := s.trace ++ [e], clk := Level.ofBit e.level, seq := s.seq.next }
  | .dio => { s with trace := s.trace ++ [e], dio := Level.ofBit e.level, seq := s.seq.next }

/-- The events in their order. -/
def emitAll (es : List PinEvent) (s : State) : State := es.foldl (fun t e => emit e t) s

/-- The events of START (R81). -/
def startEvents : List PinEvent := [c1, d1, d0, c0]

/-- R82's loop: bit 0 of t with the clock low, then the clock high, then t shifted right, n times. -/
def bitEvents : Nat → Byte → List PinEvent
  | 0, _ => []
  | n + 1, t => [c0, ⟨.dio, t.getLsbD 0⟩, c1] ++ bitEvents n (t >>> 1)

/-- The ninth clock, the ACK slot: the block drives the data line to 1 and reads nothing (R82). -/
def ackEvents : List PinEvent := [c0, d1, c1]

/-- The events of WRBYTE(value): eight bits, least significant first, then the ACK slot (R82). -/
def wrByteEvents (value : Byte) : List PinEvent := bitEvents 8 value ++ ackEvents

/-- The events of STOP (R83). -/
def stopEvents : List PinEvent := [c0, d0, c1, d1]

/-- The effect of a whole frame on the shadow (R47). The data command changes none of its items. The block sends no
frame of another form; what the chip would do then is not given, so the shadow would become unknown (log 9). -/
def Chip.told (c : Chip) (bytes : List Byte) : Chip :=
  match bytes with
  | [b] =>
    if b = dataCmd then c
    else if b.extractLsb' 3 5 = 0b10001 then { c with on := some true, bright := some (b.extractLsb' 0 3) }
    else Chip.unknown
  | [b, d] =>
    if b.extractLsb' 2 6 = 0b110000 then { c with disp := quadSet c.disp (b.extractLsb' 0 2) (some d) }
    else Chip.unknown
  | _ => Chip.unknown

/-- The last event of a START is out: a bracket is open, with no byte in it (R81, R85). -/
def openBracket (s : State) : State := { s with bracket := some [] }

/-- The last event of a byte is out: the open bracket has one byte more (R82, R84). -/
def byteSent (value : Byte) (s : State) : State := { s with bracket := s.bracket.map (· ++ [value]) }

/-- The last event of a STOP is out: the bracket is closed, and the shadow takes the frame's effect (R83, R47; log 19). -/
def closeBracket (s : State) : State :=
  { s with
    bracket := none
    chip := match s.bracket with
      | some bytes => s.chip.told bytes
      | none => s.chip }

/-- START (R81). -/
def start (s : State) : State := openBracket (emitAll startEvents s)

/-- WRBYTE(value) (R82). -/
def wrByte (value : Byte) (s : State) : State := byteSent value (emitAll (wrByteEvents value) s)

/-- STOP (R83). -/
def stop (s : State) : State := closeBracket (emitAll stopEvents s)

/-- FRAME(bytes): START, a WRBYTE for each byte, STOP (R84). -/
def frame (bytes : List Byte) (s : State) : State := stop (bytes.foldl (fun t b => wrByte b t) (start s))

/-- The events of FRAME(bytes) (R84). -/
def frameEvents (bytes : List Byte) : List PinEvent := startEvents ++ bytes.flatMap wrByteEvents ++ stopEvents

/-- TXA, the command-set transaction (R101). -/
def txa (s : State) : State := frame [dataCmd] s

/-- TXB(address, segmentByte), the address-plus-data transaction (R102). -/
def txb (address : Addr) (segmentByte : Byte) (s : State) : State := frame [addrByte address, segmentByte] s

/-- TXC, the display-control transaction; BRIGHT is read when it begins (R103). -/
def txc (s : State) : State := frame [ctrlByte s.bright] s

/-- `BUF[a] <- v` (R8, R104 step 5). -/
def writeBuf (a : Addr) (v : Byte) (s : State) : State := { s with buf := quadSet s.buf a v }

/-- `BRIGHT <- l` (R22, R118). -/
def writeBright (l : BitVec 3) (s : State) : State := { s with bright := l }

/-- `POINT <- p` (R23, R120). -/
def writePoint (p : Bool) (s : State) : State := { s with point := p }

/-- `CREATED <- 1` (R24, R111). -/
def setCreated (s : State) : State := { s with created := true }

/-- DWRITE(address, value): the five steps in their order; when ENC answers `invalid`, nothing at all (R104, R105). -/
def dwrite (address : Addr) (value : Byte) (s : State) : State :=
  match enc value s.point with
  | some seg => writeBuf address value (txc (txb address seg (txa s)))
  | none => s

/-- The frames of one DWRITE (R104). -/
def dwriteFrames (address : Addr) (value : Byte) (point : Bool) (bright : BitVec 3) : List (List Byte) :=
  match enc value point with
  | some seg => [[dataCmd], [addrByte address, seg], [ctrlByte bright]]
  | none => []

/-- `for a in order: DWRITE(a, v[a])` (R111, R113, R122). -/
def writeAll (order : List Addr) (v : Addr → Byte) (s : State) : State :=
  order.foldl (fun t a => dwrite a (v a) t) s

/-- The refresh: `for a in order: DWRITE(a, BUF[a])` (R118, R120). -/
def refresh (order : List Addr) (s : State) : State :=
  order.foldl (fun t a => dwrite a (quadGet t.buf a) t) s

/-- No operation is in progress: SEQ is idle and no bracket is open (R26, R110). -/
def idle (s : State) : Bool := s.seq == .idle && s.bracket.isNone

/-- The operation is accepted: SEQ is 0 (R26). -/
def accept (s : State) : State := { s with seq := .running 0 }

/-- The operation is complete and the block idle again (R26). -/
def finish (s : State) : State := { s with seq := .idle }

/-- The reset input: `CREATED <- 0`, SEQ idle, TRACE empty, and nothing else is written and nothing emitted; CLK, DIO
and the shadow are unknown afterwards (R150, R32; log 13). A new run begins, with no status yet (R154; log 4). -/
def hardReset (s : State) : State :=
  { s with
    created := false
    seq := .idle
    clk := .unknown
    dio := .unknown
    trace := []
    bracket := none
    chip := Chip.unknown
    statuses := [] }

end Sys2Proof.Machine
end

