-- ==== Sys2Proof/Machine/Flags.lean ====
section
/-!
DEFINITION. The block has no flags and no condition codes (spec 10_state.md R30). What an operation leaves the host is
its status (60_exceptions.md R130 to R135): the statuses, their codes, the tests that decide one, and the frame that
every host operation shares (43_host_operations.md R110).
-/

namespace Sys2Proof.Machine

/-- The status word, 2 bits; 3 is never produced (R70). -/
def Status.code : Status → BitVec 2
  | .ok => 0
  | .invalidArgument => 1
  | .refused _ => 2

/-- The operation yields its status; the block keeps no copy, the list is the host's (R132, R154). -/
def answer (st : Status) (s : State) : State := { s with statuses := s.statuses ++ [st] }

/-- The CREATED test, which every operation but CREATE begins with (R110, R134). -/
def createdTest (s : State) : Option Status := if s.created then none else some (.refused .notCreated)

/-- SETDIGIT's operand test (R116, R130). -/
def operandTest (a : BitVec 8) (v : BitVec 16) (s : State) : Option Status :=
  if setDigitLegal s.cfg.setDigitBlankOk a v then none else some .invalidArgument

/-- Two tests in their order: the first that fails decides the status (R135). -/
def firstFailure (t1 t2 : Option Status) : Option Status :=
  match t1 with
  | some st => some st
  | none => t2

/-- A host operation: taken only when the block is idle (R110; otherwise no step, R158); a failed test answers its
status and does nothing else (R131, R133, R134); otherwise it runs to completion and answers OK (R110). -/
def hostOp (failure : Option Status) (act : State → State) (s : State) : Host.Outcome State Fault Refusal :=
  if idle s then
    match failure with
    | some st => .next (answer st s)
    | none => .next (answer .ok (finish (act (accept s))))
  else .fault .operationInProgress

/-- A micro-operation that begins a frame: taken only when the block is idle, brackets never nesting (R85). -/
def wireOp (act : State → State) (s : State) : Host.Outcome State Fault Refusal :=
  if idle s then .next (act (accept s)) else .fault .operationInProgress

end Sys2Proof.Machine
end

