-- ==== Sys2Proof/Machine/Display.lean ====
section
/-!
DEFINITION. The meanings of the six host operations (spec 43_host_operations.md).
-/

namespace Sys2Proof.Machine

/-- CREATE: the registers first, then the initial clear; never refused (R111, R112). -/
def execCreate (s : State) : Host.Outcome State Fault Refusal :=
  hostOp none
    (fun t => writeAll t.cfg.clearOrder (fun _ => blankDigit) (writePoint false (writeBright 0 (setCreated t)))) s

/-- SHOW(n): all four addresses are written, whatever the band (R113, R114). -/
def execShowNumber (n : Nat) (s : State) : Host.Outcome State Fault Refusal :=
  hostOp (createdTest s) (fun t => writeAll t.cfg.showOrder (quadGet (showDigits n)) t) s

/-- SETDIGIT(a, v): the operand test before anything else is done, then one DWRITE (R116, R135). -/
def execSetDigit (a : BitVec 8) (v : BitVec 16) (s : State) : Host.Outcome State Fault Refusal :=
  hostOp (firstFailure (createdTest s) (operandTest a v s)) (dwrite (a.setWidth 2) (v.setWidth 8)) s

/-- BRIGHT(l): the register first, then the refresh (R118). -/
def execSetBright (l : BitVec 3) (s : State) : Host.Outcome State Fault Refusal :=
  hostOp (createdTest s) (fun t => refresh t.cfg.refreshOrder (writeBright l t)) s

/-- POINT(p): the register first, then the refresh; it sets the flag and does not invert it (R120, R121). -/
def execSetPoint (p : Bool) (s : State) : Host.Outcome State Fault Refusal :=
  hostOp (createdTest s) (fun t => refresh t.cfg.refreshOrder (writePoint p t)) s

/-- CLEAR: BRIGHT and POINT are kept (R122). -/
def execClear (s : State) : Host.Outcome State Fault Refusal :=
  hostOp (createdTest s) (fun t => writeAll t.cfg.clearOrder (fun _ => blankDigit) t) s

end Sys2Proof.Machine
end

