-- ==== Sys2Proof/Machine/Wire.lean ====
section
/-!
DEFINITION. The meanings of the four wire bytes: the block sends the byte in its place of the transaction that sends it
(spec 42_digit_write.md R101 to R103; the places are 30_encoding.md R65). No host operation is issued and no status
yielded: they are micro-operations (R100).
-/

namespace Sys2Proof.Machine

/-- WIRE.DATACMD: the only byte of TXA (R101). -/
def execWireDataCmd (s : State) : Host.Outcome State Fault Refusal :=
  wireOp (fun t => finish (txa t)) s

/-- WIRE.ADDRCMD a: the first byte of TXB; its bracket stays open for the segment byte (R102, R84). -/
def execWireAddrCmd (a : BitVec 2) (s : State) : Host.Outcome State Fault Refusal :=
  wireOp (fun t => wrByte (addrByte a) (start t)) s

/-- WIRE.SEGDATA p, s: the second byte of TXB, straight after the address byte, then STOP (R102, R84). With no address
byte before it, it is a byte outside its bracket (R85, U1). -/
def execWireSegData (p : Bool) (seg : BitVec 7) (s : State) : Host.Outcome State Fault Refusal :=
  match s.bracket with
  | some [_] => .next (finish (stop (wrByte (segByte p seg) s)))
  | _ => .refused .byteOutsideBracket

/-- WIRE.DISPCTL b: the only byte of TXC, the level being its operand; BRIGHT is not written (R103). -/
def execWireDispCtl (b : BitVec 3) (s : State) : Host.Outcome State Fault Refusal :=
  wireOp (fun t => finish (frame [ctrlByte b] t)) s

end Sys2Proof.Machine
end

