-- ==== Sys2Proof/Machine/Dispatch.lean ====
section
/-!
DEFINITION. One arm for each row of opcode_table.json.
-/

namespace Sys2Proof.Machine

def exec (i : Instr) (s : State) : Host.Outcome State Fault Refusal :=
  match i with
  | .create => Sys2Proof.Machine.execCreate s
  | .showNumber n => Sys2Proof.Machine.execShowNumber n s
  | .setDigit a v => Sys2Proof.Machine.execSetDigit a v s
  | .setBright l => Sys2Proof.Machine.execSetBright l s
  | .setPoint p => Sys2Proof.Machine.execSetPoint p s
  | .clear => Sys2Proof.Machine.execClear s
  | .wireDataCmd => Sys2Proof.Machine.execWireDataCmd s
  | .wireAddrCmd a => Sys2Proof.Machine.execWireAddrCmd a s
  | .wireSegData p seg => Sys2Proof.Machine.execWireSegData p seg s
  | .wireDispCtl b => Sys2Proof.Machine.execWireDispCtl b s

end Sys2Proof.Machine
end

