-- ==== Sys2Proof/Machine/Fetch.lean ====
section
/-!
DEFINITION. What the block is presented with next. It fetches no instructions (spec 10_state.md R26): the host presents
one operation at a time (70_reset_and_hazards.md R165), and the model holds what will be presented in State.port.
-/

namespace Sys2Proof.Machine

/-- What a step finds presented. -/
inductive Fetched where
  /-- Nothing: a pause, of any length the host likes (R166). -/
  | pause
  /-- The reset input (R150). -/
  | reset (s : State)
  /-- An instruction. -/
  | run (i : Instr) (s : State)
  /-- A command word that decodes to nothing (R71). -/
  | reserved (s : State)
  /-- A byte that the block never sends in its place (R73). -/
  | neverSent
deriving DecidableEq, Repr

/-- The place of the next byte: the segment byte's when one byte of the open bracket has been sent, else a command's
(R65). -/
def position (s : State) : Position :=
  match s.bracket with
  | some [_] => .segment
  | _ => .command

/-- What is presented next, taken from the port and decoded (R69, R65). -/
def fetch (s : State) : Fetched :=
  match s.port with
  | [] => .pause
  | .reset :: rest => .reset { s with port := rest }
  | .code (.command w) :: rest =>
    match decode w with
    | .ok i => .run i { s with port := rest }
    | .error _ => .reserved { s with port := rest }
  | .code (.wire b) :: rest =>
    match decodeWire (position s) b with
    | .ok i => .run i { s with port := rest }
    | .error _ => .neverSent

/-- The reset input is taken only when the block is idle (R150, R158). -/
def takeReset (s : State) : Host.Outcome State Fault Refusal :=
  if idle s then .next (hardReset s) else .fault .operationInProgress

/-- A reserved command word: status Refused, no state change, no pin event (R71, R133). -/
def refuseReserved (s : State) : Host.Outcome State Fault Refusal :=
  hostOp (some (.refused .reservedEncoding)) id s

/-- s with a code presented next, the sequencer where it is taken: idle for a command word and for a byte in command
position; for a segment byte, after the START and address byte of a TXB (R65, R102), that of address 0 if none is open
(log 11). -/
def presentNext (c : Code) (s : State) : State :=
  match c with
  | .command w => { s with port := .code (.command w) :: s.port, seq := .idle, bracket := none }
  | .wire b =>
    match naturalPosition b with
    | .command => { s with port := .code (.wire b) :: s.port, seq := .idle, bracket := none }
    | .segment =>
      { s with
        port := .code (.wire b) :: s.port
        seq := .running 31
        bracket := match s.bracket with
          | some [a] => some [a]
          | _ => some [addrByte 0] }

/-- The code that nbits bits w are: 8 bits a wire byte, else a command word (opcode_table.json, "width"). -/
def tableCode (nbits w : Nat) : Code :=
  if nbits = 8 then .wire (BitVec.ofNat 8 w) else .command (BitVec.ofNat 32 w)

end Sys2Proof.Machine
end

