-- ==== Sys2Proof/Machine/Step.lean ====
section
/-!
DEFINITION. One step of the machine: the reset input, one whole host operation (the big step of spec
43_host_operations.md R110), one wire byte, or a pause.
-/

namespace Sys2Proof.Machine

/-- One step: what is presented next is taken. -/
def step (s : State) : Host.Outcome State Fault Refusal :=
  match fetch s with
  | .pause => .next s
  | .reset s' => takeReset s'
  | .run i s' => exec i s'
  | .reserved s' => refuseReserved s'
  | .neverSent => .refused .neverSentByte

/-- s with the instruction of nbits bits w presented next, so that the next step runs it. -/
def State.withFetchWord (s : State) (nbits w : Nat) : State := presentNext (tableCode nbits w) s

end Sys2Proof.Machine
end

