-- ==== Sys2Proof/Machine/Receiver.lean ====
section
/-!
DEFINITION. Observers of the wire. The waveform of spec 10_state.md R27 and 40_bus_primitives.md R86; and the usual
reading of a two-wire waveform, 20_memory.md R56, which is general knowledge and on which no rule of the block depends
(log 10, PRESUMED). Neither is state.
-/

namespace Sys2Proof.Machine

/-- The waveform: the pairs (CLK, DIO) after each pin event (R27). -/
def waveform (clk dio : Level) : List PinEvent → List (Level × Level)
  | [] => []
  | e :: es =>
    match e.line with
    | .clk => (Level.ofBit e.level, dio) :: waveform (Level.ofBit e.level) dio es
    | .dio => (clk, Level.ofBit e.level) :: waveform clk (Level.ofBit e.level) es

/-- A receiver of the waveform: the levels on its inputs, the bytes and bits heard since a start condition, and the
frames heard so far, oldest first. -/
structure Receiver where
  clk : Level
  dio : Level
  heard : Option (List Byte × List Bool)
  frames : List (List Byte)
deriving DecidableEq, Repr

/-- A receiver that has heard nothing. -/
def Receiver.initial : Receiver := ⟨.unknown, .unknown, none, []⟩

/-- The byte whose bits, least significant first, are those of the list (R45). -/
def byteOfBits : List Bool → Byte
  | [] => 0
  | b :: bs => (byteOfBits bs <<< 1) ||| (BitVec.ofBool b).setWidth 8

/-- The clock rises: one of eight samples of DIO, or the ninth clock, after which the byte is complete (R56). -/
def Receiver.sample (dio : Level) (h : List Byte × List Bool) : List Byte × List Bool :=
  if h.2.length = 8 then (h.1 ++ [byteOfBits h.2], []) else (h.1, h.2 ++ [dio == .high])

/-- One pin event heard: a start condition is DIO going from 1 to 0 while CLK is 1, a stop condition DIO going from 0 to
1 while CLK is 1, and DIO is sampled when CLK goes from 0 to 1 (R56). -/
def Receiver.hear (e : PinEvent) (r : Receiver) : Receiver :=
  match e.line with
  | .dio =>
    if r.clk = .high ∧ r.dio = .high ∧ e.level = false then { r with dio := .low, heard := some ([], []) }
    else if r.clk = .high ∧ r.dio = .low ∧ e.level = true then
      match r.heard with
      | some h => { r with dio := .high, heard := none, frames := r.frames ++ [h.1] }
      | none => { r with dio := .high }
    else { r with dio := Level.ofBit e.level }
  | .clk =>
    if r.clk = .low ∧ e.level = true then { r with clk := .high, heard := r.heard.map (Receiver.sample r.dio) }
    else { r with clk := Level.ofBit e.level }

/-- The events heard in their order. -/
def Receiver.listen (es : List PinEvent) (r : Receiver) : Receiver := es.foldl (fun t e => Receiver.hear e t) r

/-- The shadow of a chip that has been told the frames, oldest first (R47). -/
def chipAfter (frames : List (List Byte)) : Chip := frames.foldl (fun c f => c.told f) Chip.unknown

end Sys2Proof.Machine
end

