-- ==== Sys2Proof/Machine/Sequencer.lean ====
section
/-!
DEFINITION. The small-step model of spec 10_state.md R26: what an operation does, in its order, fixed when it is accepted,
and the sequencer that emits one event of it at a time. Between two events stand the things that take none: the
registers and BUF written, and what an observer of the wire then knows of the chip (20_memory.md R50,
70_reset_and_hazards.md R161). The big step of exec is the normative one (R26, D15); step does not use this file (log 15).
-/

namespace Sys2Proof.Machine

/-- One thing an operation does: a pin event, or what takes none. -/
inductive Micro where
  /-- A pin event (R10). -/
  | drive (e : PinEvent)
  /-- START is out (R81). -/
  | opened
  /-- A byte is out (R82). -/
  | sent (b : Byte)
  /-- STOP is out, and the chip has been told the frame (R83, R47; log 19). -/
  | closed
  /-- `BUF[a] <- v` (R104 step 5). -/
  | record (a : Addr) (v : Byte)
  /-- `CREATED <- 1` (R111). -/
  | created
  /-- `BRIGHT <- l` (R111, R118). -/
  | level (l : BitVec 3)
  /-- `POINT <- p` (R111, R120). -/
  | flag (p : Bool)
deriving DecidableEq, Repr

/-- The pin event it is, if it is one. -/
def Micro.event : Micro → Option PinEvent
  | .drive e => some e
  | .opened => none
  | .sent _ => none
  | .closed => none
  | .record _ _ => none
  | .created => none
  | .level _ => none
  | .flag _ => none

/-- Its effect. -/
def Micro.run (m : Micro) (s : State) : State :=
  match m with
  | .drive e => emit e s
  | .opened => openBracket s
  | .sent b => byteSent b s
  | .closed => closeBracket s
  | .record a v => writeBuf a v s
  | .created => setCreated s
  | .level l => writeBright l s
  | .flag p => writePoint p s

/-- Their effects in their order. -/
def runScript (ms : List Micro) (s : State) : State := ms.foldl (fun t m => m.run t) s

/-- The pin events among them. -/
def scriptEvents (ms : List Micro) : List PinEvent := ms.filterMap Micro.event

/-- START (R81). -/
def startScript : List Micro := startEvents.map .drive ++ [.opened]

/-- WRBYTE(b) (R82). -/
def byteScript (b : Byte) : List Micro := (wrByteEvents b).map .drive ++ [.sent b]

/-- STOP (R83). -/
def stopScript : List Micro := stopEvents.map .drive ++ [.closed]

/-- FRAME(bytes) (R84). -/
def frameScript (bytes : List Byte) : List Micro := startScript ++ bytes.flatMap byteScript ++ stopScript

/-- DWRITE(a, v) under a point flag and a level: its frames, then BUF; nothing when ENC answers `invalid` (R104, R105). -/
def digitScript (point : Bool) (bright : BitVec 3) (a : Addr) (v : Byte) : List Micro :=
  match enc v point with
  | some _ => (dwriteFrames a v point bright).flatMap frameScript ++ [.record a v]
  | none => []

/-- `for a in order: DWRITE(a, v[a])` (R111 to R122). -/
def writesScript (point : Bool) (bright : BitVec 3) (order : List Addr) (v : Addr → Byte) : List Micro :=
  order.flatMap (fun a => digitScript point bright a (v a))

/-- An operation that a failed test ends does nothing; else the script (R135). -/
def scriptUnless (failure : Option Status) (ms : List Micro) : List Micro :=
  match failure with
  | some _ => []
  | none => ms

/-- All that an operation does, from its operands and from BUF, BRIGHT and POINT when it is accepted, together with its
own writes (R26, R55, R111 to R122). -/
def script (i : Instr) (s : State) : List Micro :=
  match i with
  | .create =>
    [.created, .level 0, .flag false] ++ writesScript false 0 s.cfg.clearOrder (fun _ => blankDigit)
  | .showNumber n =>
    scriptUnless (createdTest s) (writesScript s.point s.bright s.cfg.showOrder (quadGet (showDigits n)))
  | .setDigit a v =>
    scriptUnless (firstFailure (createdTest s) (operandTest a v s))
      (digitScript s.point s.bright (a.setWidth 2) (v.setWidth 8))
  | .setBright l =>
    scriptUnless (createdTest s) (.level l :: writesScript s.point l s.cfg.refreshOrder (quadGet s.buf))
  | .setPoint p =>
    scriptUnless (createdTest s) (.flag p :: writesScript p s.bright s.cfg.refreshOrder (quadGet s.buf))
  | .clear =>
    scriptUnless (createdTest s) (writesScript s.point s.bright s.cfg.clearOrder (fun _ => blankDigit))
  | .wireDataCmd => frameScript [dataCmd]
  | .wireAddrCmd a => startScript ++ byteScript (addrByte a)
  | .wireSegData p seg => byteScript (segByte p seg) ++ stopScript
  | .wireDispCtl b => frameScript [ctrlByte b]

/-- `Events(op, state)`, the event list fixed at the moment the operation is accepted (R26). -/
def events (i : Instr) (s : State) : List PinEvent := scriptEvents (script i s)

/-- What has been done when k events are out: all up to the k-th event, and what follows it before the next. -/
def scriptUpTo : Nat → List Micro → List Micro
  | _, [] => []
  | k, m :: ms =>
    match m.event, k with
    | none, k => m :: scriptUpTo k ms
    | some _, 0 => []
    | some _, k + 1 => m :: scriptUpTo k ms

/-- An operation in progress: what was accepted, in which state, and SEQ, the number of events already emitted. -/
structure InFlight where
  op : Instr
  accepted : State
  pos : Nat
deriving DecidableEq, Repr

/-- The operation has just been accepted: SEQ is 0. -/
def InFlight.begin (i : Instr) (s : State) : InFlight := ⟨i, s, 0⟩

/-- SEQ equals the length of the list: the operation is complete (R26). -/
def InFlight.complete (f : InFlight) : Bool := decide ((events f.op f.accepted).length ≤ f.pos)

/-- One small step: one more event is emitted and SEQ advances by 1; a complete operation stays as it is. -/
def InFlight.tick (f : InFlight) : InFlight := if f.complete then f else { f with pos := f.pos + 1 }

/-- k small steps. -/
def InFlight.ticks : Nat → InFlight → InFlight
  | 0, f => f
  | k + 1, f => InFlight.ticks k f.tick

/-- The state of the block, and of the observer's shadow, after the events emitted so far: a digit whose TXB is out and
whose TXC is not has its new segment byte under the old control setting, and a display some of whose digits are written
is a mixed one (R50, R161). -/
def InFlight.view (f : InFlight) : State :=
  runScript (scriptUpTo f.pos (script f.op f.accepted)) (accept f.accepted)

end Sys2Proof.Machine
end

