-- ==== Sys2Proof/Safety.lean ====
section
/-!
DEFINITION. The terms claims are stated in: the invariants of spec 10_state.md R31 and 20_memory.md R48, what the
receiver has heard, which inputs are the host's, and when two states are alike before CREATE (10_state.md R32).
-/

namespace Sys2Proof

open Machine

/-- One of the eleven values 0, 1, ..., 9, 0x7F (R31 item 1). -/
abbrev LegalDigit (v : Byte) : Prop := v.toNat ≤ 9 ∨ v = 0x7F

/-- Every entry of BUF is a legal digit value (R31 item 1). -/
abbrev LegalBuf (q : Quad Byte) : Prop := ∀ a : Addr, LegalDigit (quadGet q a)

/-- The lines: not yet driven since reset and unknown, or at rest at 1, as every byte and every STOP leaves them (R27,
R82, R83, R31 item 3). -/
abbrev LinesAtRest (s : State) : Prop :=
  (s.trace = [] ∧ s.clk = .unknown ∧ s.dio = .unknown) ∨ (s.trace ≠ [] ∧ s.clk = .high ∧ s.dio = .high)

/-- The sequencer: idle with no bracket open (R31 item 4), or after the 31 events of the START and address byte of a
TXB (R102). -/
abbrev SequencerPlace (s : State) : Prop :=
  (s.seq = .idle ∧ s.bracket = none) ∨ (s.seq = .running 31 ∧ ∃ a : Addr, s.bracket = some [addrByte a])

/-- What every step keeps (R25, R31). -/
structure BoundaryInv (s : State) : Prop where
  cfg : s.cfg.Legal
  buf : s.created = true → LegalBuf s.buf
  lines : LinesAtRest s
  driven : s.created = true → s.trace ≠ []
  place : SequencerPlace s

/-- The shadow agrees with the registers once CREATE has completed (R48). -/
structure Coherent (s : State) : Prop where
  disp : s.created = true → ∀ a : Addr, quadGet s.chip.disp a = enc (quadGet s.buf a) s.point
  on : s.created = true → s.chip.on = some true
  bright : s.created = true → s.chip.bright = some s.bright

/-- A receiver that has listened to TRACE (R56) is where the block is: it has the same lines, it has heard the bytes of
the open bracket and no part of a byte, and the frames it has heard give the shadow. -/
structure HeardAll (s : State) : Prop where
  clk : (Receiver.initial.listen s.trace).clk = s.clk
  dio : (Receiver.initial.listen s.trace).dio = s.dio
  heard : (Receiver.initial.listen s.trace).heard = s.bracket.map (fun bytes => (bytes, []))
  chip : chipAfter (Receiver.initial.listen s.trace).frames = s.chip

/-- What the host can present (R136, R165): the reset input or a command word, and no wire byte (R80, R100). -/
def Machine.Input.isHosts : Input → Bool
  | .reset => true
  | .code (.command _) => true
  | .code (.wire _) => false

/-- What is presented next, if anything is, is the host's. -/
def HostNext (s : State) : Prop := ∀ i ∈ s.port.head?, i.isHosts = true

/-- Two states alike but for BUF, BRIGHT and POINT before CREATE, which hold no value then (R32). -/
structure AlikeBeforeCreate (s t : State) : Prop where
  rest : { s with buf := t.buf, bright := t.bright, point := t.point } = t
  created : s.created = true → s = t

/-- Two outcomes related by a relation on states: two next states it relates, or the same stop. -/
def OutcomesRelated (r : State → State → Prop) :
    Host.Outcome State Fault Refusal → Host.Outcome State Fault Refusal → Prop
  | .next s, .next t => r s t
  | .fault f, .fault g => f = g
  | .refused f, .refused g => f = g
  | _, _ => False

/-- The frames an operation sends when it writes the digit values v in the given order under a point flag and a level,
straight from R65 and R104: for each address the data command, the address and segment bytes, the control byte. -/
def sentFrames (order : List Addr) (v : Addr → Byte) (point : Bool) (bright : BitVec 3) : List (List Byte) :=
  order.flatMap (fun a =>
    [[0x44], [a.setWidth 8 ||| 0xC0, (enc (v a) point).getD 0], [0x88 + bright.setWidth 8]])

/-- The segment bytes of four digit values (R48). -/
def segmentsOf (q : Quad Byte) (point : Bool) : Quad (Option Byte) :=
  ⟨enc q.at0 point, enc q.at1 point, enc q.at2 point, enc q.at3 point⟩

/-- The digits that a host operation that passes its tests writes: the addresses in their order, the value for each, and
the point flag and level it sends them under (R111, R113, R116, R118, R120, R122). -/
def WritesDigits (i : Instr) (s : State) (order : List Addr) (v : Addr → Byte) (point : Bool) (bright : BitVec 3) :
    Prop :=
  match i with
  | .create => order = s.cfg.clearOrder ∧ v = (fun _ => 0x7F) ∧ point = false ∧ bright = 0
  | .showNumber n => order = s.cfg.showOrder ∧ v = quadGet (showDigits n) ∧ point = s.point ∧ bright = s.bright
  | .setDigit a x =>
    setDigitLegal s.cfg.setDigitBlankOk a x = true ∧
      order = [a.setWidth 2] ∧ v = (fun _ => x.setWidth 8) ∧ point = s.point ∧ bright = s.bright
  | .setBright l => order = s.cfg.refreshOrder ∧ v = quadGet s.buf ∧ point = s.point ∧ bright = l
  | .setPoint p => order = s.cfg.refreshOrder ∧ v = quadGet s.buf ∧ point = p ∧ bright = s.bright
  | .clear => order = s.cfg.clearOrder ∧ v = (fun _ => 0x7F) ∧ point = s.point ∧ bright = s.bright
  | .wireDataCmd => False
  | .wireAddrCmd _ => False
  | .wireSegData _ _ => False
  | .wireDispCtl _ => False

/-- s after an operation has sent the frames: the events are appended, the lines are at rest, the sequencer idle. -/
def afterFrames (s : State) (frames : List (List Byte)) : State :=
  { s with trace := s.trace ++ frames.flatMap frameEvents, clk := .high, dio := .high, seq := .idle }

end Sys2Proof
end

