-- ==== Sys2Proof/Certificates/Slice0/Obligations.lean ====
section
/-!
DEFINITION. The statements about the machine, each a Prop. Where one rests on a choice of the model's, its docstring
names the log entry.
-/

open Sys2Proof Sys2Proof.Machine

/-! Encodings -/

/-- Decoding the word or byte of a well-formed instruction, in the place its byte has, gives the instruction back; of
every segment byte too, whether or not it is one that the encoder ENC answers. -/
def Obligations.DecodeOfEncodeIsTheInstruction : Prop :=
  ∀ i : Instr, i.wellFormed = true ∨ (∃ p seg, i = .wireSegData p seg) → decodeCode i.position (encode i) = .ok i

/-- What a word or a byte decodes to encodes to that word or byte again, and a word decodes to a well-formed host
operation: no bit of an encoding is dropped, and no two words mean the same. -/
def Obligations.EncodeOfDecodeIsTheCode : Prop :=
  (∀ (pos : Position) (c : Code) (i : Instr), decodeCode pos c = .ok i → encode i = c) ∧
  ∀ (w : BitVec 32) (i : Instr), decode w = .ok i → i.wellFormed = true ∧ i.isHost = true

/-- R69, the decoder as the chain of mask tests the rule writes out, on all 2^32 words; `none` is `reserved`. -/
def Obligations.DecodeFollowsTheMaskChain : Prop :=
  ∀ w : BitVec 32, (decode w).toOption =
    if w &&& 0xFFFFFFFF = 0x00000000 then some .create
    else if w &&& 0xFFFF0000 = 0x10000000 then some (.showNumber (w.extractLsb' 0 16).toNat)
    else if w &&& 0xFF000000 = 0x20000000 then some (.setDigit (w.extractLsb' 16 8) (w.extractLsb' 0 16))
    else if w &&& 0xFFFFFFF8 = 0x30000000 then some (.setBright (w.extractLsb' 0 3))
    else if w &&& 0xFFFFFFFE = 0x40000000 then some (.setPoint (w.getLsbD 0))
    else if w &&& 0xFFFFFFFF = 0x50000000 then some .clear
    else none

/-- R68: a word selects at most one of the six rows, and it decodes exactly when it selects one. -/
def Obligations.EachWordSelectsAtMostOneRow : Prop :=
  ∀ w : BitVec 32,
    ((commandRows.filter (fun r => r.selectedBy (.command w))).length =
      match decode w with
      | .ok _ => 1
      | .error _ => 0) ∧
    ∀ i, decode w = .ok i → i.row ∈ commandRows ∧ i.row.selectedBy (.command w) = true

/-- Words of the spec's own vectors (95_test_vectors.md section 2.5) and bytes written out from R61 to R64. -/
def Obligations.SampleWordsDecode : Prop :=
  decode 0x00000000 = .ok .create ∧ decode 0x100004D2 = .ok (.showNumber 1234) ∧
  decode 0x20030004 = .ok (.setDigit 3 4) ∧ decode 0x30000005 = .ok (.setBright 5) ∧
  decode 0x40000001 = .ok (.setPoint true) ∧ decode 0x50000000 = .ok .clear ∧
  decodeWire .command 0b01000100 = .ok .wireDataCmd ∧ decodeWire .command 0b11000011 = .ok (.wireAddrCmd 3) ∧
  decodeWire .segment 0b11100110 = .ok (.wireSegData true 0x66) ∧
  decodeWire .command 0b10001101 = .ok (.wireDispCtl 5)

/-- R73: in command position exactly thirteen byte values stand, 0x44, 0xC0 to 0xC3 and 0x88 to 0x8F. -/
def Obligations.ThirteenBytesInCommandPosition : Prop :=
  (∀ b : Byte, (decodeWire .command b).isOk = true ↔
    b = 0x44 ∨ (0xC0 ≤ b.toNat ∧ b.toNat ≤ 0xC3) ∨ (0x88 ≤ b.toNat ∧ b.toNat ≤ 0x8F)) ∧
  ((List.range 256).filter (fun n => (decodeWire .command (BitVec.ofNat 8 n)).isOk)).length = 13

/-! The segment encoder -/

/-- R92, the full result table of ENC on its domain. -/
def Obligations.EncResultTable : Prop :=
  (List.range 16).map (fun d => enc (BitVec.ofNat 8 d) false) =
    [0x3F, 0x06, 0x5B, 0x4F, 0x66, 0x6D, 0x7D, 0x07, 0x7F, 0x6F, 0x77, 0x7C, 0x39, 0x5E, 0x79, 0x71].map some ∧
  (List.range 16).map (fun d => enc (BitVec.ofNat 8 d) true) =
    [0xBF, 0x86, 0xDB, 0xCF, 0xE6, 0xED, 0xFD, 0x87, 0xFF, 0xEF, 0xF7, 0xFC, 0xB9, 0xDE, 0xF9, 0xF1].map some ∧
  enc 0x7F false = some 0x00 ∧ enc 0x7F true = some 0x80

/-- R93: outside {0, ..., 15} and 0x7F, and only there, ENC answers `invalid`, and a DWRITE does nothing (R105). -/
def Obligations.EncInvalidOutsideItsDomain : Prop :=
  (∀ (d : Byte) (p : Bool), enc d p = none ↔ 15 < d.toNat ∧ d ≠ 0x7F) ∧
  ∀ (a : Addr) (d : Byte) (s : State), 15 < d.toNat → d ≠ 0x7F → dwrite a d s = s

/-- R95 (a): the point bit is independent of the digit, and no digit sets bit 7 by itself. -/
def Obligations.PointBitIsIndependentOfTheDigit : Prop :=
  ∀ (d : Byte) (seg : Byte), enc d false = some seg → seg.getLsbD 7 = false ∧ enc d true = some (seg ||| 0x80)

/-! The bus -/

/-- R82: WRBYTE sends `C0 D(value[i]) C1` for i from 0 to 7 and then `C0 D1 C1`, 27 events, and leaves both lines at 1.
Besides TRACE and the lines only the model's own count of it changes: SEQ and the bracket's bytes. -/
def Obligations.WrByteSendsBitsLeastSignificantFirst : Prop :=
  ∀ (value : Byte) (s : State),
    wrByteEvents value =
      [0, 1, 2, 3, 4, 5, 6, 7].flatMap (fun i => [c0, ⟨.dio, value.getLsbD i⟩, c1]) ++ [c0, d1, c1] ∧
    (wrByteEvents value).length = 27 ∧
    wrByte value s = { s with
      trace := s.trace ++ wrByteEvents value, clk := .high, dio := .high
      seq := (wrByte value s).seq, bracket := s.bracket.map (· ++ [value]) }

/-- R81 and R83: the events of START and STOP and the levels they leave, whatever the lines were; after a WRBYTE, when
both are at 1, each event of STOP changes a level. -/
def Obligations.StartAndStopDriveTheLines : Prop :=
  ∀ s : State,
    (start s).trace = s.trace ++ [c1, d1, d0, c0] ∧ (start s).clk = .low ∧ (start s).dio = .low ∧
    (stop s).trace = s.trace ++ [c0, d0, c1, d1] ∧ (stop s).clk = .high ∧ (stop s).dio = .high ∧
    (s.clk = .high → s.dio = .high →
      waveform s.clk s.dio [c0, d0, c1, d1] = [(.low, .high), (.low, .low), (.high, .low), (.high, .high)])

/-- R86: the waveform of a one-byte frame from the idle lines, b the byte's bits; and from
one pair to the next DIO changes only while CLK is 0, but for START's `D0` (event 2) and STOP's `D1` (event 34). -/
def Obligations.WaveformOfOneByteFrame : Prop :=
  ∀ v : Byte,
    let b (i : Nat) : Level := Level.ofBit (v.getLsbD i)
    let bitsAfter (x : Level) (i : Nat) : List (Level × Level) := [(.low, x), (.low, b i), (.high, b i)]
    let startPairs : List (Level × Level) := [(.high, .high), (.high, .high), (.high, .low), (.low, .low)]
    let ackPairs : List (Level × Level) := [(.low, b 7), (.low, .high), (.high, .high)]
    let stopPairs : List (Level × Level) := [(.low, .high), (.low, .low), (.high, .low), (.high, .high)]
    let pairs : List (Level × Level) := waveform .high .high (frameEvents [v])
    pairs =
      startPairs ++ bitsAfter .low 0 ++ bitsAfter (b 0) 1 ++ bitsAfter (b 1) 2 ++ bitsAfter (b 2) 3 ++
        bitsAfter (b 3) 4 ++ bitsAfter (b 4) 5 ++ bitsAfter (b 5) 6 ++ bitsAfter (b 6) 7 ++ ackPairs ++ stopPairs ∧
    ∀ (k : Nat) (x y : Level × Level), ((.high, .high) :: pairs)[k]? = some x → pairs[k]? = some y → x.2 ≠ y.2 →
      (x.1 = .low ∧ y.1 = .low) ∨ k = 2 ∨ k = 34

/-- R56 (the spec's general knowledge, log 10): a receiver between brackets, whatever its lines, hears exactly the bytes
of a frame, of any number of bytes. -/
def Obligations.ReceiverHearsExactlyTheFrame : Prop :=
  ∀ (bytes : List Byte) (r : Receiver), r.heard = none →
    r.listen (frameEvents bytes) = { clk := .high, dio := .high, heard := none, frames := r.frames ++ [bytes] }

/-- R104: DWRITE with a digit the encoder has a meaning for: its three frames in their order, 132 events, then the
digit value, not the segment byte, recorded in BUF; every other entry, and every other register, as it was. -/
def Obligations.DigitWriteDoesItsFiveSteps : Prop :=
  ∀ (a : Addr) (value seg : Byte) (s : State), s.bracket = none → enc value s.point = some seg →
    let frames : List (List Byte) := [[0x44], [a.setWidth 8 ||| 0xC0, seg], [0x88 + s.bright.setWidth 8]]
    (frames.flatMap frameEvents).length = 132 ∧
    dwrite a value s = { s with
      trace := s.trace ++ frames.flatMap frameEvents, clk := .high, dio := .high, seq := (dwrite a value s).seq
      buf := quadSet s.buf a value
      chip := ⟨quadSet s.chip.disp a (some seg), some true, some s.bright⟩ } ∧
    (∀ k, s.seq = .running k → (dwrite a value s).seq = .running (k + 132)) ∧
    quadGet (dwrite a value s).buf a = value ∧
    ∀ b : Addr, b ≠ a → quadGet (dwrite a value s).buf b = quadGet s.buf b

/-- R164: the event counts of every unit. -/
def Obligations.EventCounts : Prop :=
  startEvents.length = 4 ∧ stopEvents.length = 4 ∧
  (∀ b : Byte, (wrByteEvents b).length = 27 ∧ (frameEvents [b]).length = 35) ∧
  (∀ b d : Byte, (frameEvents [b, d]).length = 62) ∧
  (∀ (a : Addr) (v : Byte) (p : Bool) (b : BitVec 3), LegalDigit v →
    let es := (dwriteFrames a v p b).flatMap frameEvents
    es.count c0 = 42 ∧ es.count c1 = 42 ∧ es.count d0 + es.count d1 = 48 ∧ es.length = 132) ∧
  ∀ s : State, s.cfg.Legal → s.created = true → LegalBuf s.buf →
    (∀ n, (events (.showNumber n) s).length = 528) ∧ (∀ l, (events (.setBright l) s).length = 528) ∧
    (∀ p, (events (.setPoint p) s).length = 528) ∧ (events .create s).length = 528 ∧ (events .clear s).length = 528 ∧
    ∀ a v, (events (.setDigit a v) s).length = if setDigitLegal s.cfg.setDigitBlankOk a v then 132 else 0

/-! The host operations: what each leaves, all of it -/

/-- R111, R112: CREATE, its word, and what it leaves in any idle state, created or not; the status it returns is the last
of the list statuses (log 4). -/
def Obligations.CreateSetsAndBlanksTheDisplay : Prop :=
  encode .create = .command 0x00000000 ∧
  ∀ s : State, idle s = true → s.cfg.Legal →
    let frames : List (List Byte) := s.cfg.clearOrder.flatMap (fun a => [[0x44], [a.setWidth 8 ||| 0xC0, 0x00], [0x88]])
    frames.length = 12 ∧ (frames.flatMap frameEvents).length = 528 ∧
    exec .create s = .next { afterFrames s frames with
      created := true, bright := 0, point := false, buf := ⟨0x7F, 0x7F, 0x7F, 0x7F⟩
      chip := ⟨⟨some 0x00, some 0x00, some 0x00, some 0x00⟩, some true, some 0⟩
      statuses := s.statuses ++ [.ok] }

/-- R113: SHOW, its word, and for any number n the four values by the band of n, sent and stored at all four addresses;
the status it returns is the last of the list statuses (log 4). -/
def Obligations.ShowWritesTheDecimalDigits : Prop :=
  (∀ w : BitVec 16, encode (.showNumber w.toNat) = .command (0x10000000 ||| w.setWidth 32)) ∧
  ∀ (n : Nat) (s : State), idle s = true → s.cfg.Legal → s.created = true →
    let d3 : Byte := BitVec.ofNat 8 (n % 10)
    let d2 : Byte := BitVec.ofNat 8 ((n / 10) % 10)
    let d1 : Byte := BitVec.ofNat 8 ((n / 100) % 10)
    let d0 : Byte := BitVec.ofNat 8 ((n / 1000) % 10)
    let v : Quad Byte :=
      if n < 10 then ⟨0x7F, 0x7F, 0x7F, d3⟩
      else if n < 100 then ⟨0x7F, 0x7F, d2, d3⟩
      else if n < 1000 then ⟨0x7F, d1, d2, d3⟩
      else ⟨d0, d1, d2, d3⟩
    let frames := sentFrames s.cfg.showOrder (quadGet v) s.point s.bright
    frames.length = 12 ∧ (frames.flatMap frameEvents).length = 528 ∧
    exec (.showNumber n) s = .next { afterFrames s frames with
      buf := v, chip := ⟨segmentsOf v s.point, some true, some s.bright⟩, statuses := s.statuses ++ [.ok] }

/-- R114: above 9999 the four values are the four lowest decimal digits, leading zeros shown, for every such n. -/
def Obligations.ShowTruncatesToTheLowestFourDigits : Prop :=
  ∀ (n : Nat) (s t : State), 10000 ≤ n → s.cfg.Legal → s.created = true → exec (.showNumber n) s = .next t →
    t.buf = ⟨BitVec.ofNat 8 (n % 10000 / 1000), BitVec.ofNat 8 (n % 1000 / 100), BitVec.ofNat 8 (n % 100 / 10),
      BitVec.ofNat 8 (n % 10)⟩ ∧
    t.statuses = s.statuses ++ [.ok] ∧
    ∃ u, exec (.showNumber (10000 + n % 10000)) s = .next u ∧ t = u

/-- R116: SETDIGIT, its word; with legal operands one DWRITE, the other three addresses left alone; with an operand out
of range InvalidArgument and nothing else. The status it returns is the last of the list statuses (log 4). -/
def Obligations.SetDigitWritesOneDigit : Prop :=
  (∀ (a : BitVec 8) (v : BitVec 16),
    encode (.setDigit a v) = .command (0x20000000 ||| (a.setWidth 32 <<< 16) ||| v.setWidth 32)) ∧
  ∀ (a : BitVec 8) (v : BitVec 16) (s : State), idle s = true → s.created = true →
    let addr : Addr := a.setWidth 2
    let value : Byte := v.setWidth 8
    let frames := sentFrames [addr] (fun _ => value) s.point s.bright
    if a.toNat ≤ 3 ∧ (v.toNat ≤ 9 ∨ (s.cfg.setDigitBlankOk = true ∧ v = 0x7F)) then
      frames.length = 3 ∧ (frames.flatMap frameEvents).length = 132 ∧
      exec (.setDigit a v) s = .next { afterFrames s frames with
        buf := quadSet s.buf addr value
        chip := ⟨quadSet s.chip.disp addr (enc value s.point), some true, some s.bright⟩
        statuses := s.statuses ++ [.ok] } ∧
      ∀ b : Addr, b ≠ addr → quadGet (quadSet s.buf addr value) b = quadGet s.buf b ∧
        quadGet (quadSet s.chip.disp addr (enc value s.point)) b = quadGet s.chip.disp b
    else exec (.setDigit a v) s = .next { s with statuses := s.statuses ++ [.invalidArgument] }

/-- R130, R131: SETDIGIT with an operand out of range, either or both: InvalidArgument, and the state is the state
before the operation (the list of statuses is the host's, log 4). -/
def Obligations.SetDigitInvalidLeavesNothingBehind : Prop :=
  ∀ (a : BitVec 8) (v : BitVec 16) (s : State), idle s = true → s.created = true →
    (3 < a.toNat ∨ (9 < v.toNat ∧ (s.cfg.setDigitBlankOk = false ∨ v ≠ 0x7F))) →
    exec (.setDigit a v) s = .next { s with statuses := s.statuses ++ [.invalidArgument] }

/-- R118: BRIGHT, its word, all four control bytes at the new level, BUF and the digits as they were; the status it
returns is the last of the list statuses (log 4). -/
def Obligations.BrightRefreshesAtTheNewLevel : Prop :=
  (∀ l : BitVec 3, encode (.setBright l) = .command (0x30000000 ||| l.setWidth 32)) ∧
  ∀ (l : BitVec 3) (s : State), idle s = true → s.cfg.Legal → s.created = true → LegalBuf s.buf →
    let frames := sentFrames s.cfg.refreshOrder (quadGet s.buf) s.point l
    frames.length = 12 ∧ (frames.flatMap frameEvents).length = 528 ∧
    exec (.setBright l) s = .next { afterFrames s frames with
      bright := l, chip := ⟨segmentsOf s.buf s.point, some true, some l⟩, statuses := s.statuses ++ [.ok] }

/-- R120: POINT, its word, all four segment bytes encoded under the new flag, BUF as it was; the status it returns is
the last of the list statuses (log 4). -/
def Obligations.PointRefreshesUnderTheNewFlag : Prop :=
  (∀ p : Bool, encode (.setPoint p) = .command (0x40000000 ||| (BitVec.ofBool p).setWidth 32)) ∧
  ∀ (p : Bool) (s : State), idle s = true → s.cfg.Legal → s.created = true → LegalBuf s.buf →
    let frames := sentFrames s.cfg.refreshOrder (quadGet s.buf) p s.bright
    frames.length = 12 ∧ (frames.flatMap frameEvents).length = 528 ∧
    exec (.setPoint p) s = .next { afterFrames s frames with
      point := p, chip := ⟨segmentsOf s.buf p, some true, some s.bright⟩, statuses := s.statuses ++ [.ok] }

/-- R122: CLEAR, its word; it blanks all four digits and keeps BRIGHT and POINT; a blank digit still carries the point;
the status it returns is the last of the list statuses (log 4). -/
def Obligations.ClearBlanksAllFourDigits : Prop :=
  encode .clear = .command 0x50000000 ∧
  ∀ s : State, idle s = true → s.cfg.Legal → s.created = true →
    let blank : Byte := if s.point then 0x80 else 0x00
    let frames : List (List Byte) :=
      s.cfg.clearOrder.flatMap (fun a => [[0x44], [a.setWidth 8 ||| 0xC0, blank], [0x88 + s.bright.setWidth 8]])
    frames.length = 12 ∧ (frames.flatMap frameEvents).length = 528 ∧
    exec .clear s = .next { afterFrames s frames with
      buf := ⟨0x7F, 0x7F, 0x7F, 0x7F⟩
      chip := ⟨⟨some blank, some blank, some blank, some blank⟩, some true, some s.bright⟩
      statuses := s.statuses ++ [.ok] }

/-- R134: before CREATE every other host operation is refused, with no state change and no pin event (the list of
statuses is the host's, log 4). -/
def Obligations.RefusedBeforeCreate : Prop :=
  ∀ (i : Instr) (s : State), i.isHost = true → i ≠ .create → idle s = true → s.created = false →
    exec i s = .next { s with statuses := s.statuses ++ [.refused .notCreated] } ∧
    (Status.refused .notCreated).code = 2

/-- R110, R155, R138: every host operation that is taken, whatever the registers hold, comes to its end with one of the
three statuses, and the block is idle again. -/
def Obligations.EveryHostOperationEnds : Prop :=
  ∀ (i : Instr) (s : State), i.isHost = true → idle s = true →
    ∃ (t : State) (st : Status), exec i s = .next t ∧ idle t = true ∧ t.statuses = s.statuses ++ [st] ∧
      (st.code = 0 ∨ st.code = 1 ∨ st.code = 2) ∧ (s.created = false → i ≠ .create → st.code = 2)

/-- R158: an operation, or a byte that begins a frame, presented while another is in progress: no step. -/
def Obligations.NoStepWhileAnOperationIsInProgress : Prop :=
  (∀ (i : Instr) (s : State), i.position = .command → idle s = false → exec i s = .fault .operationInProgress) ∧
  ∀ (s : State) (rest : List Input), s.port = .reset :: rest → idle s = false → step s = .fault .operationInProgress

/-- R135: the order of the tests: decoding, then CREATED, then SETDIGIT's operands, either or both (the word
is taken from the port, log 5; the list of statuses is the host's, log 4). -/
def Obligations.TestsAreMadeInOrder : Prop :=
  ∀ (s : State) (w : BitVec 32) (rest : List Input), s.port = .code (.command w) :: rest → idle s = true →
    ((∃ e, decode w = .error e) →
      step s = .next { s with port := rest, statuses := s.statuses ++ [.refused .reservedEncoding] }) ∧
    (∀ i, decode w = .ok i → i ≠ .create → s.created = false →
      step s = .next { s with port := rest, statuses := s.statuses ++ [.refused .notCreated] }) ∧
    (∀ a v, decode w = .ok (.setDigit a v) → s.created = true → setDigitLegal s.cfg.setDigitBlankOk a v = false →
      step s = .next { s with port := rest, statuses := s.statuses ++ [.invalidArgument] })

/-! The wire bytes -/

/-- R101: TXA sends these 35 events, always the same, and tells the shadow nothing; that WIRE.DATACMD does what TXA does
is log 7. -/
def Obligations.DataCommandSendsTransactionA : Prop :=
  ∀ s : State, idle s = true →
    exec .wireDataCmd s = .next { s with
      trace := s.trace ++ [c1, d1, d0, c0, c0, d0, c1, c0, d0, c1, c0, d1, c1, c0, d0, c1, c0, d0, c1, c0, d0, c1,
        c0, d1, c1, c0, d0, c1, c0, d1, c1, c0, d0, c1, d1]
      clk := .high, dio := .high, seq := .idle }

/-- R102, R62: the address byte opens TXB: START and the byte, 31 events, the bracket left open for the segment byte
(WIRE.ADDRCMD as an instruction is log 7; the bracket and SEQ between the two bytes are the model's, log 3 and 14). -/
def Obligations.AddressCommandOpensTransactionB : Prop :=
  ∀ (a : BitVec 2) (s : State), idle s = true →
    exec (.wireAddrCmd a) s = .next { s with
      trace := s.trace ++ ([c1, d1, d0, c0] ++ wrByteEvents (a.setWidth 8 ||| 0xC0))
      clk := .high, dio := .high, seq := .running 31, bracket := some [a.setWidth 8 ||| 0xC0] }

/-- R102, R64, R47: the segment byte closes TXB: the byte and STOP, and the shadow's entry at the address holds it
(WIRE.SEGDATA as an instruction is log 7). -/
def Obligations.SegmentByteClosesTransactionB : Prop :=
  ∀ (p : Bool) (seg : BitVec 7) (a : Addr) (s : State), s.bracket = some [a.setWidth 8 ||| 0xC0] →
    let byte : Byte := (if p then 0x80 else 0x00) ||| seg.setWidth 8
    exec (.wireSegData p seg) s = .next { s with
      trace := s.trace ++ (wrByteEvents byte ++ [c0, d0, c1, d1])
      clk := .high, dio := .high, seq := .idle, bracket := none
      chip := { s.chip with disp := quadSet s.chip.disp a (some byte) } }

/-- R102: the address byte and then the segment byte are TXB(address, segmentByte): FRAME of the two, 62 events (the two
bytes as instructions are log 7). -/
def Obligations.TwoBytesMakeTransactionB : Prop :=
  ∀ (p : Bool) (seg : BitVec 7) (a : Addr) (s : State), idle s = true →
    let byte : Byte := (if p then 0x80 else 0x00) ||| seg.setWidth 8
    (frameEvents [a.setWidth 8 ||| 0xC0, byte]).length = 62 ∧
    ∃ t, exec (.wireAddrCmd a) s = .next t ∧ exec (.wireSegData p seg) t = .next (finish (txb a byte s)) ∧
      (txb a byte s).trace = s.trace ++ frameEvents [a.setWidth 8 ||| 0xC0, byte]

/-- R63, R47: WIRE.DISPCTL sends the frame of its byte, and the display is told on, at the level. That the level is the
operand's, whatever BRIGHT holds, is the model's choice (log 7): R103's TXC reads BRIGHT. -/
def Obligations.DisplayControlSendsTransactionC : Prop :=
  ∀ (b : BitVec 3) (s : State), idle s = true →
    (frameEvents [0x88 + b.setWidth 8]).length = 35 ∧
    exec (.wireDispCtl b) s = .next { s with
      trace := s.trace ++ frameEvents [0x88 + b.setWidth 8]
      clk := .high, dio := .high, seq := .idle
      chip := { s.chip with on := some true, bright := some b } }

/-- U1, R85: a segment byte with no bracket open is refused by name (log 8). -/
def Obligations.SegmentByteOutsideItsBracketIsRefused : Prop :=
  ∀ (p : Bool) (seg : BitVec 7) (s : State), s.bracket = none →
    exec (.wireSegData p seg) s = .refused .byteOutsideBracket

/-! Steps -/

/-- A step runs the instruction that the presented code decodes to. That a host operation is one step is R110, and what a
command word decodes to is R69. That a step takes what is presented from the head of the port is the model's choice (log 5),
and so is that a presented wire byte is decoded by its place and run (log 7): the block never decodes wire bytes (R60). -/
def Obligations.StepRunsTheDecodedInstruction : Prop :=
  ∀ (s : State) (c : Code) (rest : List Input) (i : Instr),
    s.port = .code c :: rest → decodeCode (position s) c = .ok i → step s = exec i { s with port := rest }

/-- R133, R71: a command word that selects no row is refused: status code 2, no state change, no pin event (the word
is taken from the port, log 5; the list of statuses is the host's, log 4). -/
def Obligations.ReservedWordIsRefused : Prop :=
  ∀ (s : State) (w : BitVec 32) (rest : List Input),
    s.port = .code (.command w) :: rest → idle s = true → (∀ r ∈ commandRows, w &&& r.mask ≠ r.value) →
    step s = .next { s with port := rest, statuses := s.statuses ++ [.refused .reservedEncoding] } ∧
    (Status.refused .reservedEncoding).code = 2

/-- R73, U15: a byte in command position that is none of the thirteen is refused by name (log 7; presented
through the port, log 5). -/
def Obligations.NeverSentByteIsRefused : Prop :=
  ∀ (s : State) (b : Byte) (rest : List Input), s.port = .code (.wire b) :: rest → s.bracket = none →
    b ≠ 0x44 → ¬(0xC0 ≤ b.toNat ∧ b.toNat ≤ 0xC3) → ¬(0x88 ≤ b.toNat ∧ b.toNat ≤ 0x8F) →
    step s = .refused .neverSentByte

/-- R150: the reset input, in an idle state: CREATED 0, SEQ idle, TRACE empty; CLK, DIO and the shadow unknown; nothing
else written (the input is taken from the port, log 5, and the list of statuses of the run begins anew, log 4). -/
def Obligations.ResetInputDoesTheLeast : Prop :=
  ∀ (s : State) (rest : List Input), s.port = .reset :: rest → idle s = true →
    step s = .next { s with
      port := rest, created := false, seq := .idle, trace := [], clk := .unknown, dio := .unknown
      chip := ⟨⟨none, none, none, none⟩, none, none⟩, statuses := [] }

/-- R166: with nothing presented, that is with an empty port (log 5), the step is a pause, which changes nothing. -/
def Obligations.PauseChangesNothing : Prop :=
  ∀ s : State, s.port = [] → step s = .next s

/-- R32, the column "after reset": the values the spec gives. -/
def Obligations.ResetLeavesTheValuesOfTheTable : Prop :=
  State.reset.created = false ∧ State.reset.seq = .idle ∧ State.reset.clk = .unknown ∧ State.reset.dio = .unknown ∧
  State.reset.trace = [] ∧ State.reset.chip = ⟨⟨none, none, none, none⟩, none, none⟩ ∧
  State.reset.cfg.showOrder = [3, 2, 1, 0] ∧ State.reset.cfg.clearOrder = [0, 1, 2, 3] ∧
  State.reset.cfg.refreshOrder = [0, 1, 2, 3] ∧ State.reset.cfg.setDigitBlankOk = false

/-! Frames and invariants -/

/-- R33, R21 to R25: which instruction writes which register, and nothing else does. -/
def Obligations.RegistersWrittenOnlyByTheirOperations : Prop :=
  ∀ (i : Instr) (s t : State), exec i s = .next t →
    t.cfg = s.cfg ∧ t.port = s.port ∧
    (i ≠ .create → t.created = s.created) ∧
    (i ≠ .create → (∀ l, i ≠ .setBright l) → t.bright = s.bright) ∧
    (i ≠ .create → (∀ p, i ≠ .setPoint p) → t.point = s.point) ∧
    (i.isHost = false → t.buf = s.buf ∧ t.statuses = s.statuses) ∧
    ((∃ l, i = .setBright l) ∨ (∃ p, i = .setPoint p) → t.buf = s.buf) ∧
    (∀ a v, i = .setDigit a v → ∀ b : Addr, b.toNat ≠ a.toNat → quadGet t.buf b = quadGet s.buf b) ∧
    (i = .wireDataCmd → t.chip = s.chip) ∧ ((∃ a, i = .wireAddrCmd a) → t.chip = s.chip)

/-- R24: CREATED is set by CREATE and by nothing else, and cleared by reset and by nothing else. -/
def Obligations.CreatedIsSetByCreateAndClearedByReset : Prop :=
  ∀ s t : State, step s = .next t →
    (s.created = false → t.created = true → ∃ rest, s.port = .code (.command 0x00000000) :: rest) ∧
    (s.created = true → t.created = false → ∃ rest, s.port = .reset :: rest)

/-- R28: TRACE only ever grows, but at reset, when it is empty. -/
def Obligations.TraceOnlyGrows : Prop :=
  ∀ s t : State, step s = .next t →
    (∃ es, t.trace = s.trace ++ es) ∨ ((∃ rest, s.port = .reset :: rest) ∧ t.trace = [])

/-- R132, R70: each host operation yields exactly one status, whose code is never 3; with any other than OK nothing else
changes (R131, R134). The list of statuses is the host's (log 4). -/
def Obligations.OneStatusForEachHostOperation : Prop :=
  ∀ (i : Instr) (s t : State), i.isHost = true → exec i s = .next t →
    ∃ st : Status, t.statuses = s.statuses ++ [st] ∧ st.code ≠ 3 ∧ (st.code ≠ 0 → t = answer st s)

/-- R65, R73, R85: what a host operation sends is whole frames in triples, the data command, the address and a segment
byte, the control byte at the level BRIGHT then holds; every segment byte is one of a digit 0 to 9 or of BLANK, under the
flag POINT then holds. -/
def Obligations.HostOperationsSendOnlyDigitWrites : Prop :=
  ∀ (i : Instr) (s t : State), i.isHost = true → BoundaryInv s → exec i s = .next t →
    ∃ ws : List (Addr × Byte),
      t.trace = s.trace ++ (ws.flatMap (fun w =>
        [[0x44], [w.1.setWidth 8 ||| 0xC0, w.2], [0x88 + t.bright.setWidth 8]])).flatMap frameEvents ∧
      ∀ w ∈ ws, ∃ v : Byte, LegalDigit v ∧ enc v t.point = some w.2

/-- R31, R25: what holds between operations is kept by every step, from every state that meets it. -/
def Obligations.StepKeepsTheInvariant : Prop :=
  ∀ s t : State, BoundaryInv s → step s = .next t → BoundaryInv t

/-- R31 and R32: it holds at reset. -/
def Obligations.ResetMeetsTheInvariant : Prop := BoundaryInv State.reset

/-- R48: the shadow agrees with BUF, POINT and BRIGHT: kept by every step the host can cause. -/
def Obligations.StepKeepsTheShadowCoherent : Prop :=
  ∀ s t : State, BoundaryInv s → Coherent s → HostNext s → step s = .next t → Coherent t

/-- R48 at reset, and after the first CREATE from it, when the display is on, dimmest and dark. -/
def Obligations.ShadowIsCoherentAtResetAndAfterCreate : Prop :=
  Coherent State.reset ∧
  ∃ t, exec .create State.reset = .next t ∧ Coherent t ∧
    t.chip = ⟨⟨some 0x00, some 0x00, some 0x00, some 0x00⟩, some true, some 0⟩

/-- R56, R47 (general knowledge, log 10): a receiver that has listened to all of TRACE is where the block is, and the
frames it has heard give the shadow: kept by every step, wire bytes included. -/
def Obligations.StepKeepsTheReceiverInAgreement : Prop :=
  ∀ s t : State, HeardAll s → step s = .next t → HeardAll t

/-- R56, R46: at reset it has heard nothing and the shadow is unknown. -/
def Obligations.ReceiverAgreesAtReset : Prop := HeardAll State.reset

/-! What is observable, and the two models of time -/

/-- R32: no run can tell which values BUF, BRIGHT and POINT have before CREATE: two states that differ in nothing else
step to two such states, or stop alike. So nothing that can be observed rests on log 1. -/
def Obligations.RegistersBeforeCreateAreUnobservable : Prop :=
  ∀ s t : State, s.cfg.Legal → AlikeBeforeCreate s t → OutcomesRelated AlikeBeforeCreate (step s) (step t)

/-- R27: no rule reads CLK or DIO, nor TRACE: with other lines and another TRACE an instruction emits the same events and
leaves everything else the same. -/
def Obligations.LinesAndTraceAreNeverRead : Prop :=
  ∀ (i : Instr) (s : State) (clk dio : Level) (tr : List PinEvent),
    OutcomesRelated
      (fun t u => ∃ es, t.trace = s.trace ++ es ∧ u.trace = tr ++ es ∧
        (es ≠ [] → u.clk = t.clk ∧ u.dio = t.dio) ∧ { u with trace := t.trace, clk := t.clk, dio := t.dio } = t)
      (exec i s) (exec i { s with clk := clk, dio := dio, trace := tr })

/-- R6, D8, D9: the three orders change TRACE and nothing else, not even its length. -/
def Obligations.OrdersChangeOnlyTheTrace : Prop :=
  ∀ (i : Instr) (s t : State) (c : Config), BoundaryInv s → c.Legal → c.setDigitBlankOk = s.cfg.setDigitBlankOk →
    exec i s = .next t →
    ∃ u, exec i { s with cfg := c } = .next u ∧ { u with cfg := t.cfg, trace := t.trace } = t ∧
      u.trace.length = t.trace.length

/-- R26: the small-step sequencer (log 15) agrees with the big step: after k of the n events SEQ is k and the operation is
complete exactly at n; then TRACE and the lines are those the big step leaves. A wire byte counts as an operation of its
own here (log 7), so for WIRE.SEGDATA SEQ runs from 0, where the state's own SEQ holds 31 (log 14). -/
def Obligations.SmallStepsReachTheBigStep : Prop :=
  ∀ (i : Instr) (s t : State), exec i s = .next t →
    let n := (events i s).length
    (∀ k, k ≤ n → (InFlight.ticks k (.begin i s)).view.seq = .running k ∧
      ((InFlight.ticks k (.begin i s)).complete = true ↔ k = n)) ∧
    (InFlight.ticks n (.begin i s)).view.trace = t.trace ∧
    (InFlight.ticks n (.begin i s)).view.clk = t.clk ∧ (InFlight.ticks n (.begin i s)).view.dio = t.dio

/-- R26, R55: complete, the small steps have left the whole state that the big step leaves, registers, BUF, bracket and
shadow included; the status is the answer that follows, and SEQ is then the big step's (log 14, log 15). -/
def Obligations.SmallStepsLeaveTheWholeState : Prop :=
  ∀ (i : Instr) (s t : State), exec i s = .next t →
    { (InFlight.ticks (events i s).length (.begin i s)).view with seq := t.seq, statuses := t.statuses } = t

/-- R50, R161, R119 (e): inside an operation the chip's digits change one at a time, each when the TXB of its DWRITE is
out (97 of its 132 events), while the control setting is still the one before until the first TXC is out; in a BRIGHT the
new level is in force from then on (a frame takes effect at the end of its STOP, log 19; the small steps, log 15). -/
def Obligations.DigitsChangeOneAtATime : Prop :=
  ∀ (i : Instr) (s : State) (order : List Addr) (v : Addr → Byte) (point : Bool) (bright : BitVec 3),
    BoundaryInv s → idle s = true → (i ≠ .create → s.created = true) → WritesDigits i s order v point bright →
    (events i s).length = 132 * order.length ∧
    ∀ k, k ≤ 132 * order.length →
      let c := (InFlight.ticks k (.begin i s)).view.chip
      (∀ (j : Nat) (a : Addr), order[j]? = some a →
        quadGet c.disp a = if 132 * j + 97 ≤ k then enc (v a) point else quadGet s.chip.disp a) ∧
      (∀ a : Addr, a ∉ order → quadGet c.disp a = quadGet s.chip.disp a) ∧
      c.on = (if 132 ≤ k then some true else s.chip.on) ∧
      c.bright = (if 132 ≤ k then some bright else s.chip.bright)
end

