-- ==== Sys2Proof/Laws/Decode.lean ====
section
/-!
SUPPORT. A command word is its four fields, and the fields of a word made from four fields are those fields (spec
30_encoding.md R68).
-/

namespace Sys2Proof

/-- Every word is its OP, ZERO, A and N. -/
theorem word_eq_fields (w : BitVec 32) : w = opField w ++ zeroField w ++ aField w ++ nField w := by
  apply BitVec.eq_of_getLsbD_eq
  intro i hi
  simp only [opField, zeroField, aField, nField, BitVec.getLsbD_append, BitVec.getLsbD_extractLsb']
  by_cases h1 : i < 16
  · simp [h1]
  · by_cases h2 : i < 24
    · have : i - 16 < 8 := by omega
      have e : 16 + (i - 16) = i := by omega
      simp [h1, this, e]
    · by_cases h3 : i < 28
      · have a : ¬ i - 16 < 8 := by omega
        have b : i - 16 - 8 < 4 := by omega
        have e : 24 + (i - 16 - 8) = i := by omega
        simp [h1, a, b, e]
      · have a : ¬ i - 16 < 8 := by omega
        have b : ¬ i - 16 - 8 < 4 := by omega
        have c : i - 16 - 8 - 4 < 4 := by omega
        have e : 28 + (i - 16 - 8 - 4) = i := by omega
        simp [h1, a, b, c, e]

/-- The bits of a format H word. -/
theorem commandWord_getLsbD (op : BitVec 4) (a : BitVec 8) (n : BitVec 16) (i : Nat) :
    (commandWord op a n).getLsbD i =
      if i < 16 then n.getLsbD i
      else if i - 16 < 8 then a.getLsbD (i - 16)
      else if i - 16 - 8 < 4 then (0 : BitVec 4).getLsbD (i - 16 - 8)
      else op.getLsbD (i - 16 - 8 - 4) := by
  have e : (commandWord op a n).getLsbD i = (((op ++ (0 : BitVec 4)) ++ a) ++ n).getLsbD i := rfl
  rw [e, BitVec.getLsbD_append, BitVec.getLsbD_append, BitVec.getLsbD_append]

@[simp] theorem opField_commandWord (op : BitVec 4) (a : BitVec 8) (n : BitVec 16) :
    opField (commandWord op a n) = op := by
  apply BitVec.eq_of_getLsbD_eq
  intro i hi
  rw [opField, BitVec.getLsbD_extractLsb', commandWord_getLsbD]
  rw [if_neg (by omega), if_neg (by omega), if_neg (by omega), (by omega : 28 + i - 16 - 8 - 4 = i)]
  simp [hi]

@[simp] theorem zeroField_commandWord (op : BitVec 4) (a : BitVec 8) (n : BitVec 16) :
    zeroField (commandWord op a n) = 0 := by
  apply BitVec.eq_of_getLsbD_eq
  intro i hi
  rw [zeroField, BitVec.getLsbD_extractLsb', commandWord_getLsbD]
  rw [if_neg (by omega), if_neg (by omega), if_pos (by omega)]
  simp

@[simp] theorem aField_commandWord (op : BitVec 4) (a : BitVec 8) (n : BitVec 16) :
    aField (commandWord op a n) = a := by
  apply BitVec.eq_of_getLsbD_eq
  intro i hi
  rw [aField, BitVec.getLsbD_extractLsb', commandWord_getLsbD]
  rw [if_neg (by omega), if_pos (by omega), (by omega : 16 + i - 16 = i)]
  simp [hi]

@[simp] theorem nField_commandWord (op : BitVec 4) (a : BitVec 8) (n : BitVec 16) :
    nField (commandWord op a n) = n := by
  apply BitVec.eq_of_getLsbD_eq
  intro i hi
  rw [nField, BitVec.getLsbD_extractLsb', commandWord_getLsbD, (by omega : 0 + i = i), if_pos (by omega)]
  simp [hi]

/-- A word whose ZERO field is 0 is the format H word of its other fields. -/
theorem commandWord_fields {w : BitVec 32} (h : zeroField w = 0) :
    commandWord (opField w) (aField w) (nField w) = w := by
  conv_rhs => rw [word_eq_fields w, h]
  rfl

end Sys2Proof
end

