-- ==== Sys2Proof/Laws/Operands.lean ====
section
/-!
SUPPORT. What the operand functions can do: reading back what was written by digit address, the domain of ENC, and that
the digits of SHOW are legal.
-/

namespace Sys2Proof.Machine

theorem addr_cases (a : Addr) : a = 0 ∨ a = 1 ∨ a = 2 ∨ a = 3 := by
  revert a; decide

@[simp] theorem quadGet_zero {α : Type} (q : Quad α) : quadGet q 0#2 = q.at0 := rfl
@[simp] theorem quadGet_one {α : Type} (q : Quad α) : quadGet q 1#2 = q.at1 := rfl
@[simp] theorem quadGet_two {α : Type} (q : Quad α) : quadGet q 2#2 = q.at2 := rfl
@[simp] theorem quadGet_three {α : Type} (q : Quad α) : quadGet q 3#2 = q.at3 := rfl

theorem quadGet_quadSet {α : Type} (q : Quad α) (a b : Addr) (v : α) :
    quadGet (quadSet q a v) b = if b = a then v else quadGet q b := by
  obtain rfl | rfl | rfl | rfl := addr_cases a <;> obtain rfl | rfl | rfl | rfl := addr_cases b <;> rfl

@[simp] theorem quadGet_quadSet_same {α : Type} (q : Quad α) (a : Addr) (v : α) :
    quadGet (quadSet q a v) a = v := by simp [quadGet_quadSet]

theorem quad_ext {α : Type} {q r : Quad α} (h : ∀ a, quadGet q a = quadGet r a) : q = r := by
  have h0 : q.at0 = r.at0 := h 0
  have h1 : q.at1 = r.at1 := h 1
  have h2 : q.at2 = r.at2 := h 2
  have h3 : q.at3 = r.at3 := h 3
  cases q
  cases r
  simp only at h0 h1 h2 h3
  rw [h0, h1, h2, h3]

/-- Writing what an entry already holds changes nothing (R118: "the value it already has"). -/
@[simp] theorem quadSet_quadGet {α : Type} (q : Quad α) (a : Addr) : quadSet q a (quadGet q a) = q := by
  apply quad_ext
  intro b
  rw [quadGet_quadSet]
  split
  · next h => rw [h]
  · rfl

/-- A blank digit is the point alone (R91). -/
@[simp] theorem enc_blank (p : Bool) : enc 127#8 p = some (if p then 128#8 else 0#8) := by cases p <;> decide

@[simp] theorem enc_blankDigit (p : Bool) : enc blankDigit p = some (if p then 128#8 else 0#8) := enc_blank p

/-- ENC answers on its domain and nowhere else (R93). -/
theorem enc_isSome_iff (v : Byte) (p : Bool) : (enc v p).isSome = true ↔ v.toNat ≤ 15 ∨ v = 0x7F := by
  by_cases hb : v = 0x7F
  · subst hb
    cases p <;> decide
  · have hne : v ≠ blankDigit := hb
    by_cases hd : v.toNat ≤ 15
    · simp [enc, hne, hd]
    · simp only [enc, hne, hd, if_false, Option.isSome_none, false_or, Bool.false_eq_true, false_iff]
      exact hb

/-- A digit that is at most 9 is encoded. -/
theorem enc_isSome_of_le (v : Byte) (p : Bool) (h : v.toNat ≤ 9 ∨ v = 0x7F) : (enc v p).isSome = true :=
  (enc_isSome_iff v p).2 (h.imp_left (fun h => by omega))

theorem digitOf_toNat (n : Nat) : (digitOf n).toNat = n % 10 := by
  simp only [digitOf, BitVec.toNat_ofNat]
  omega

/-- Every value SHOW writes is a decimal digit or BLANK (R31 item 1, R113). -/
theorem showDigits_legal (n : Nat) (a : Addr) :
    (quadGet (showDigits n) a).toNat ≤ 9 ∨ quadGet (showDigits n) a = 0x7F := by
  have hd (m : Nat) : (digitOf m).toNat ≤ 9 := by rw [digitOf_toNat]; omega
  obtain rfl | rfl | rfl | rfl := addr_cases a <;> simp only [showDigits] <;>
    repeat' split
  all_goals first | exact .inr rfl | exact .inl (hd _)

end Sys2Proof.Machine
end

