-- ==== Sys2Proof/Laws/State.lean ====
section
/-!
SUPPORT. What each named update of the state leaves in each field: one lemma per field, so that no later proof unfolds a
record update.
-/

namespace Sys2Proof.Machine

variable (s : State)

/-! accept -/
@[simp] theorem accept_cfg : (accept s).cfg = s.cfg := rfl
@[simp] theorem accept_created : (accept s).created = s.created := rfl
@[simp] theorem accept_bright : (accept s).bright = s.bright := rfl
@[simp] theorem accept_point : (accept s).point = s.point := rfl
@[simp] theorem accept_buf : (accept s).buf = s.buf := rfl
@[simp] theorem accept_seq : (accept s).seq = .running 0 := rfl
@[simp] theorem accept_clk : (accept s).clk = s.clk := rfl
@[simp] theorem accept_dio : (accept s).dio = s.dio := rfl
@[simp] theorem accept_trace : (accept s).trace = s.trace := rfl
@[simp] theorem accept_bracket : (accept s).bracket = s.bracket := rfl
@[simp] theorem accept_chip : (accept s).chip = s.chip := rfl
@[simp] theorem accept_statuses : (accept s).statuses = s.statuses := rfl
@[simp] theorem accept_port : (accept s).port = s.port := rfl

/-! finish -/
@[simp] theorem finish_cfg : (finish s).cfg = s.cfg := rfl
@[simp] theorem finish_created : (finish s).created = s.created := rfl
@[simp] theorem finish_bright : (finish s).bright = s.bright := rfl
@[simp] theorem finish_point : (finish s).point = s.point := rfl
@[simp] theorem finish_buf : (finish s).buf = s.buf := rfl
@[simp] theorem finish_seq : (finish s).seq = .idle := rfl
@[simp] theorem finish_clk : (finish s).clk = s.clk := rfl
@[simp] theorem finish_dio : (finish s).dio = s.dio := rfl
@[simp] theorem finish_trace : (finish s).trace = s.trace := rfl
@[simp] theorem finish_bracket : (finish s).bracket = s.bracket := rfl
@[simp] theorem finish_chip : (finish s).chip = s.chip := rfl
@[simp] theorem finish_statuses : (finish s).statuses = s.statuses := rfl
@[simp] theorem finish_port : (finish s).port = s.port := rfl

/-! answer -/
@[simp] theorem answer_cfg (st : Status) : (answer st s).cfg = s.cfg := rfl
@[simp] theorem answer_created (st : Status) : (answer st s).created = s.created := rfl
@[simp] theorem answer_bright (st : Status) : (answer st s).bright = s.bright := rfl
@[simp] theorem answer_point (st : Status) : (answer st s).point = s.point := rfl
@[simp] theorem answer_buf (st : Status) : (answer st s).buf = s.buf := rfl
@[simp] theorem answer_seq (st : Status) : (answer st s).seq = s.seq := rfl
@[simp] theorem answer_clk (st : Status) : (answer st s).clk = s.clk := rfl
@[simp] theorem answer_dio (st : Status) : (answer st s).dio = s.dio := rfl
@[simp] theorem answer_trace (st : Status) : (answer st s).trace = s.trace := rfl
@[simp] theorem answer_bracket (st : Status) : (answer st s).bracket = s.bracket := rfl
@[simp] theorem answer_chip (st : Status) : (answer st s).chip = s.chip := rfl
@[simp] theorem answer_statuses (st : Status) : (answer st s).statuses = s.statuses ++ [st] := rfl
@[simp] theorem answer_port (st : Status) : (answer st s).port = s.port := rfl

/-! writeBuf -/
@[simp] theorem writeBuf_cfg (a : Addr) (v : Byte) : (writeBuf a v s).cfg = s.cfg := rfl
@[simp] theorem writeBuf_created (a : Addr) (v : Byte) : (writeBuf a v s).created = s.created := rfl
@[simp] theorem writeBuf_bright (a : Addr) (v : Byte) : (writeBuf a v s).bright = s.bright := rfl
@[simp] theorem writeBuf_point (a : Addr) (v : Byte) : (writeBuf a v s).point = s.point := rfl
@[simp] theorem writeBuf_buf (a : Addr) (v : Byte) : (writeBuf a v s).buf = quadSet s.buf a v := rfl
@[simp] theorem writeBuf_seq (a : Addr) (v : Byte) : (writeBuf a v s).seq = s.seq := rfl
@[simp] theorem writeBuf_clk (a : Addr) (v : Byte) : (writeBuf a v s).clk = s.clk := rfl
@[simp] theorem writeBuf_dio (a : Addr) (v : Byte) : (writeBuf a v s).dio = s.dio := rfl
@[simp] theorem writeBuf_trace (a : Addr) (v : Byte) : (writeBuf a v s).trace = s.trace := rfl
@[simp] theorem writeBuf_bracket (a : Addr) (v : Byte) : (writeBuf a v s).bracket = s.bracket := rfl
@[simp] theorem writeBuf_chip (a : Addr) (v : Byte) : (writeBuf a v s).chip = s.chip := rfl
@[simp] theorem writeBuf_statuses (a : Addr) (v : Byte) : (writeBuf a v s).statuses = s.statuses := rfl
@[simp] theorem writeBuf_port (a : Addr) (v : Byte) : (writeBuf a v s).port = s.port := rfl

/-! writeBright -/
@[simp] theorem writeBright_cfg (l : BitVec 3) : (writeBright l s).cfg = s.cfg := rfl
@[simp] theorem writeBright_created (l : BitVec 3) : (writeBright l s).created = s.created := rfl
@[simp] theorem writeBright_bright (l : BitVec 3) : (writeBright l s).bright = l := rfl
@[simp] theorem writeBright_point (l : BitVec 3) : (writeBright l s).point = s.point := rfl
@[simp] theorem writeBright_buf (l : BitVec 3) : (writeBright l s).buf = s.buf := rfl
@[simp] theorem writeBright_seq (l : BitVec 3) : (writeBright l s).seq = s.seq := rfl
@[simp] theorem writeBright_clk (l : BitVec 3) : (writeBright l s).clk = s.clk := rfl
@[simp] theorem writeBright_dio (l : BitVec 3) : (writeBright l s).dio = s.dio := rfl
@[simp] theorem writeBright_trace (l : BitVec 3) : (writeBright l s).trace = s.trace := rfl
@[simp] theorem writeBright_bracket (l : BitVec 3) : (writeBright l s).bracket = s.bracket := rfl
@[simp] theorem writeBright_chip (l : BitVec 3) : (writeBright l s).chip = s.chip := rfl
@[simp] theorem writeBright_statuses (l : BitVec 3) : (writeBright l s).statuses = s.statuses := rfl
@[simp] theorem writeBright_port (l : BitVec 3) : (writeBright l s).port = s.port := rfl

/-! writePoint -/
@[simp] theorem writePoint_cfg (p : Bool) : (writePoint p s).cfg = s.cfg := rfl
@[simp] theorem writePoint_created (p : Bool) : (writePoint p s).created = s.created := rfl
@[simp] theorem writePoint_bright (p : Bool) : (writePoint p s).bright = s.bright := rfl
@[simp] theorem writePoint_point (p : Bool) : (writePoint p s).point = p := rfl
@[simp] theorem writePoint_buf (p : Bool) : (writePoint p s).buf = s.buf := rfl
@[simp] theorem writePoint_seq (p : Bool) : (writePoint p s).seq = s.seq := rfl
@[simp] theorem writePoint_clk (p : Bool) : (writePoint p s).clk = s.clk := rfl
@[simp] theorem writePoint_dio (p : Bool) : (writePoint p s).dio = s.dio := rfl
@[simp] theorem writePoint_trace (p : Bool) : (writePoint p s).trace = s.trace := rfl
@[simp] theorem writePoint_bracket (p : Bool) : (writePoint p s).bracket = s.bracket := rfl
@[simp] theorem writePoint_chip (p : Bool) : (writePoint p s).chip = s.chip := rfl
@[simp] theorem writePoint_statuses (p : Bool) : (writePoint p s).statuses = s.statuses := rfl
@[simp] theorem writePoint_port (p : Bool) : (writePoint p s).port = s.port := rfl

/-! setCreated -/
@[simp] theorem setCreated_cfg : (setCreated s).cfg = s.cfg := rfl
@[simp] theorem setCreated_created : (setCreated s).created = true := rfl
@[simp] theorem setCreated_bright : (setCreated s).bright = s.bright := rfl
@[simp] theorem setCreated_point : (setCreated s).point = s.point := rfl
@[simp] theorem setCreated_buf : (setCreated s).buf = s.buf := rfl
@[simp] theorem setCreated_seq : (setCreated s).seq = s.seq := rfl
@[simp] theorem setCreated_clk : (setCreated s).clk = s.clk := rfl
@[simp] theorem setCreated_dio : (setCreated s).dio = s.dio := rfl
@[simp] theorem setCreated_trace : (setCreated s).trace = s.trace := rfl
@[simp] theorem setCreated_bracket : (setCreated s).bracket = s.bracket := rfl
@[simp] theorem setCreated_chip : (setCreated s).chip = s.chip := rfl
@[simp] theorem setCreated_statuses : (setCreated s).statuses = s.statuses := rfl
@[simp] theorem setCreated_port : (setCreated s).port = s.port := rfl

/-! hardReset -/
@[simp] theorem hardReset_cfg : (hardReset s).cfg = s.cfg := rfl
@[simp] theorem hardReset_created : (hardReset s).created = false := rfl
@[simp] theorem hardReset_bright : (hardReset s).bright = s.bright := rfl
@[simp] theorem hardReset_point : (hardReset s).point = s.point := rfl
@[simp] theorem hardReset_buf : (hardReset s).buf = s.buf := rfl
@[simp] theorem hardReset_seq : (hardReset s).seq = .idle := rfl
@[simp] theorem hardReset_clk : (hardReset s).clk = .unknown := rfl
@[simp] theorem hardReset_dio : (hardReset s).dio = .unknown := rfl
@[simp] theorem hardReset_trace : (hardReset s).trace = [] := rfl
@[simp] theorem hardReset_bracket : (hardReset s).bracket = none := rfl
@[simp] theorem hardReset_chip : (hardReset s).chip = Chip.unknown := rfl
@[simp] theorem hardReset_statuses : (hardReset s).statuses = [] := rfl
@[simp] theorem hardReset_port : (hardReset s).port = s.port := rfl

/-! emit, on each line -/
@[simp] theorem emitClk_cfg (v : Bool) : (emit ⟨.clk, v⟩ s).cfg = s.cfg := rfl
@[simp] theorem emitClk_created (v : Bool) : (emit ⟨.clk, v⟩ s).created = s.created := rfl
@[simp] theorem emitClk_bright (v : Bool) : (emit ⟨.clk, v⟩ s).bright = s.bright := rfl
@[simp] theorem emitClk_point (v : Bool) : (emit ⟨.clk, v⟩ s).point = s.point := rfl
@[simp] theorem emitClk_buf (v : Bool) : (emit ⟨.clk, v⟩ s).buf = s.buf := rfl
@[simp] theorem emitClk_seq (v : Bool) : (emit ⟨.clk, v⟩ s).seq = s.seq.next := rfl
@[simp] theorem emitClk_clk (v : Bool) : (emit ⟨.clk, v⟩ s).clk = Level.ofBit v := rfl
@[simp] theorem emitClk_dio (v : Bool) : (emit ⟨.clk, v⟩ s).dio = s.dio := rfl
@[simp] theorem emitClk_trace (v : Bool) : (emit ⟨.clk, v⟩ s).trace = s.trace ++ [⟨.clk, v⟩] := rfl
@[simp] theorem emitClk_bracket (v : Bool) : (emit ⟨.clk, v⟩ s).bracket = s.bracket := rfl
@[simp] theorem emitClk_chip (v : Bool) : (emit ⟨.clk, v⟩ s).chip = s.chip := rfl
@[simp] theorem emitClk_statuses (v : Bool) : (emit ⟨.clk, v⟩ s).statuses = s.statuses := rfl
@[simp] theorem emitClk_port (v : Bool) : (emit ⟨.clk, v⟩ s).port = s.port := rfl
@[simp] theorem emitDio_cfg (v : Bool) : (emit ⟨.dio, v⟩ s).cfg = s.cfg := rfl
@[simp] theorem emitDio_created (v : Bool) : (emit ⟨.dio, v⟩ s).created = s.created := rfl
@[simp] theorem emitDio_bright (v : Bool) : (emit ⟨.dio, v⟩ s).bright = s.bright := rfl
@[simp] theorem emitDio_point (v : Bool) : (emit ⟨.dio, v⟩ s).point = s.point := rfl
@[simp] theorem emitDio_buf (v : Bool) : (emit ⟨.dio, v⟩ s).buf = s.buf := rfl
@[simp] theorem emitDio_seq (v : Bool) : (emit ⟨.dio, v⟩ s).seq = s.seq.next := rfl
@[simp] theorem emitDio_clk (v : Bool) : (emit ⟨.dio, v⟩ s).clk = s.clk := rfl
@[simp] theorem emitDio_dio (v : Bool) : (emit ⟨.dio, v⟩ s).dio = Level.ofBit v := rfl
@[simp] theorem emitDio_trace (v : Bool) : (emit ⟨.dio, v⟩ s).trace = s.trace ++ [⟨.dio, v⟩] := rfl
@[simp] theorem emitDio_bracket (v : Bool) : (emit ⟨.dio, v⟩ s).bracket = s.bracket := rfl
@[simp] theorem emitDio_chip (v : Bool) : (emit ⟨.dio, v⟩ s).chip = s.chip := rfl
@[simp] theorem emitDio_statuses (v : Bool) : (emit ⟨.dio, v⟩ s).statuses = s.statuses := rfl
@[simp] theorem emitDio_port (v : Bool) : (emit ⟨.dio, v⟩ s).port = s.port := rfl

end Sys2Proof.Machine
end

