-- ==== Sys2Proof/Laws/Ops.lean ====
section
/-!
SUPPORT. Everything each shared operation can do, said once: what the events of an operation leave in TRACE, the lines,
SEQ and the shadow, and what a host operation can answer.
-/

namespace Sys2Proof.Machine

/-- The level of a line after events, from the level before. -/
def levelAfter (ln : Line) (es : List PinEvent) (l : Level) : Level :=
  es.foldl (fun l e => if e.line = ln then Level.ofBit e.level else l) l

/-- SEQ after n events. -/
def Seq.advance (q : Seq) (n : Nat) : Seq :=
  match q with
  | .idle => .idle
  | .running k => .running (k + n)

@[simp] theorem Seq.advance_zero (q : Seq) : q.advance 0 = q := by cases q <;> rfl

theorem Seq.next_advance (q : Seq) (n : Nat) : q.next.advance n = q.advance (n + 1) := by
  cases q <;> simp [Seq.next, Seq.advance]; omega

@[simp] theorem Seq.advance_advance (q : Seq) (m n : Nat) : (q.advance m).advance n = q.advance (m + n) := by
  cases q <;> simp [Seq.advance]; omega

theorem levelAfter_append (ln : Line) (es fs : List PinEvent) (l : Level) :
    levelAfter ln (es ++ fs) l = levelAfter ln fs (levelAfter ln es l) := by
  simp [levelAfter]

/-- Whatever came before, a STOP leaves both lines at 1 (R83). -/
@[simp] theorem levelAfter_stop (ln : Line) (es : List PinEvent) (l : Level) :
    levelAfter ln (es ++ stopEvents) l = .high := by
  rw [levelAfter_append]
  cases ln <;> rfl

/-- Whatever came before, a WRBYTE leaves both lines at 1 (R82). -/
@[simp] theorem levelAfter_wrByte (ln : Line) (es : List PinEvent) (b : Byte) (l : Level) :
    levelAfter ln (es ++ wrByteEvents b) l = .high := by
  rw [wrByteEvents, ← List.append_assoc, levelAfter_append]
  cases ln <;> rfl

/-- All that emitting events does: TRACE, the two lines and SEQ (R10, R26, R27, R28). -/
theorem emitAll_eq (es : List PinEvent) (s : State) :
    emitAll es s = { s with
      trace := s.trace ++ es
      clk := levelAfter .clk es s.clk
      dio := levelAfter .dio es s.dio
      seq := s.seq.advance es.length } := by
  induction es generalizing s with
  | nil => simp [emitAll, levelAfter]
  | cons e es ih =>
    have step : emitAll (e :: es) s = emitAll es (emit e s) := rfl
    rw [step, ih]
    obtain ⟨ln, v⟩ := e
    cases ln <;> simp [emit, levelAfter, Seq.next_advance]

theorem emitAll_append (es fs : List PinEvent) (s : State) :
    emitAll (es ++ fs) s = emitAll fs (emitAll es s) := by
  simp [emitAll]

/-- All that START does (R81). -/
theorem start_eq (s : State) :
    start s = { s with
      trace := s.trace ++ startEvents, clk := .low, dio := .low, seq := s.seq.advance 4, bracket := some [] } := by
  rw [start, emitAll_eq]
  rfl

/-- All that WRBYTE does (R82). -/
theorem wrByte_eq (b : Byte) (s : State) :
    wrByte b s = { s with
      trace := s.trace ++ wrByteEvents b, clk := .high, dio := .high, seq := s.seq.advance 27
      bracket := s.bracket.map (· ++ [b]) } := by
  have h (ln : Line) (l : Level) : levelAfter ln (wrByteEvents b) l = .high := levelAfter_wrByte ln [] b l
  rw [wrByte, emitAll_eq, h, h]
  rfl

/-- All that STOP does (R83, R47). -/
theorem stop_eq (s : State) :
    stop s = { s with
      trace := s.trace ++ stopEvents, clk := .high, dio := .high, seq := s.seq.advance 4, bracket := none
      chip := match s.bracket with
        | some bytes => s.chip.told bytes
        | none => s.chip } := by
  rw [stop, emitAll_eq]
  rfl

theorem wrByteEvents_length (b : Byte) : (wrByteEvents b).length = 27 := rfl

/-- All that the WRBYTEs of a frame do in its open bracket (R84). -/
theorem wrBytes_eq (bytes sent : List Byte) (s : State) (hs : s.bracket = some sent) (hb : bytes ≠ []) :
    bytes.foldl (fun t b => wrByte b t) s = { s with
      trace := s.trace ++ bytes.flatMap wrByteEvents, clk := .high, dio := .high
      seq := s.seq.advance (27 * bytes.length), bracket := some (sent ++ bytes) } := by
  induction bytes generalizing s sent with
  | nil => exact absurd rfl hb
  | cons b bs ih =>
    rw [List.foldl_cons, wrByte_eq]
    by_cases hn : bs = []
    · subst hn
      simp [hs]
    · rw [ih (sent ++ [b]) _ (by simp [hs]) hn]
      simp [Nat.mul_add, Nat.add_comm]

theorem frameEvents_length (bytes : List Byte) : (frameEvents bytes).length = 8 + 27 * bytes.length := by
  have h : (bytes.flatMap wrByteEvents).length = 27 * bytes.length := by
    induction bytes with
    | nil => rfl
    | cons b bs ih => simp only [List.flatMap_cons, List.length_append, ih, wrByteEvents_length, List.length_cons]; omega
  simp only [frameEvents, List.length_append, h, startEvents, stopEvents, List.length_cons, List.length_nil]
  omega

/-- All that a frame does: its events, the lines at rest, the bracket closed, the shadow told (R84, R47). -/
theorem frame_eq (bytes : List Byte) (hb : bytes ≠ []) (s : State) :
    frame bytes s = { s with
      trace := s.trace ++ frameEvents bytes, clk := .high, dio := .high
      seq := s.seq.advance (8 + 27 * bytes.length), bracket := none, chip := s.chip.told bytes } := by
  rw [frame, start_eq, wrBytes_eq bytes [] _ rfl hb, stop_eq]
  simp [frameEvents]
  congr 1
  omega

@[simp] theorem told_dataCmd (c : Chip) : c.told [dataCmd] = c := rfl

/-- The display-control frame (R47). -/
@[simp] theorem told_ctrlByte (c : Chip) (b : BitVec 3) :
    c.told [ctrlByte b] = { c with on := some true, bright := some b } := by
  have h1 : ctrlByte b ≠ dataCmd := by revert b; decide
  have h2 : (ctrlByte b).extractLsb' 3 5 = 0b10001 := by revert b; decide
  have h3 : (ctrlByte b).extractLsb' 0 3 = b := by revert b; decide
  simp [Chip.told, h1, h2, h3]

/-- The address-plus-data frame (R47). -/
@[simp] theorem told_addrByte (c : Chip) (a : Addr) (d : Byte) :
    c.told [addrByte a, d] = { c with disp := quadSet c.disp a (some d) } := by
  have h2 : (addrByte a).extractLsb' 2 6 = 0b110000 := by revert a; decide
  have h3 : (addrByte a).extractLsb' 0 2 = a := by revert a; decide
  simp [Chip.told, h2, h3]

/-- A TXB is the address byte's and the segment byte's wire operations, one after the other (R102). -/
theorem txb_eq_wire (a : Addr) (p : Bool) (seg : BitVec 7) (s : State) :
    txb a (segByte p seg) s = stop (wrByte (segByte p seg) (wrByte (addrByte a) (start s))) := rfl

/-- All that one DWRITE of a digit in the encoder's domain does (R104). -/
theorem dwrite_eq (a : Addr) (v : Byte) (seg : Byte) (s : State) (h : enc v s.point = some seg) :
    dwrite a v s = { s with
      trace := s.trace ++ (dwriteFrames a v s.point s.bright).flatMap frameEvents, clk := .high, dio := .high
      seq := s.seq.advance 132, bracket := none, buf := quadSet s.buf a v
      chip := ⟨quadSet s.chip.disp a (enc v s.point), some true, some s.bright⟩ } := by
  simp only [dwrite, h, dwriteFrames, txa, txb, txc, writeBuf]
  rw [frame_eq _ (by simp), frame_eq _ (by simp), frame_eq _ (by simp)]
  simp

/-- A DWRITE of a digit outside the encoder's domain does nothing at all (R105). -/
theorem dwrite_invalid (a : Addr) (v : Byte) (s : State) (h : enc v s.point = none) : dwrite a v s = s := by
  simp [dwrite, h]

/-- The fields a DWRITE never writes. -/
theorem dwrite_frame (a : Addr) (v : Byte) (s : State) :
    (dwrite a v s).cfg = s.cfg ∧ (dwrite a v s).created = s.created ∧ (dwrite a v s).bright = s.bright ∧
    (dwrite a v s).point = s.point ∧ (dwrite a v s).statuses = s.statuses ∧ (dwrite a v s).port = s.port := by
  cases h : enc v s.point with
  | none => simp [dwrite_invalid a v s h]
  | some seg => simp [dwrite_eq a v seg s h]

end Sys2Proof.Machine
end

