-- ==== Sys2Proof/Laws/Receiver.lean ====
section
/-!
SUPPORT. What the receiver of spec 20_memory.md R56 makes of the block's primitives, once for each.
-/

namespace Sys2Proof.Machine

theorem listen_append (es fs : List PinEvent) (r : Receiver) :
    r.listen (es ++ fs) = Receiver.listen fs (r.listen es) := by
  simp [Receiver.listen]

@[simp] theorem ofBit_beq_high (v : Bool) : (Level.ofBit v == Level.high) = v := by cases v <;> rfl

/-- Every byte is the byte of its bits, least significant first (R45). -/
theorem byteOfBits_bits (b : Byte) : byteOfBits ([0, 1, 2, 3, 4, 5, 6, 7].map b.getLsbD) = b := by
  revert b
  decide +kernel

/-- One `C0 Dv C1` heard: v is sampled. -/
theorem listen_group (v : Bool) (clk dio : Level) (h : List Byte × List Bool) (frames : List (List Byte)) :
    Receiver.listen [c0, ⟨.dio, v⟩, c1] ⟨clk, dio, some h, frames⟩ =
      ⟨.high, Level.ofBit v, some (Receiver.sample (Level.ofBit v) h), frames⟩ := by
  cases v <;> cases clk <;> cases dio <;> rfl

/-- A START heard between brackets, whatever the lines (R56: harmless to an idle receiver). -/
theorem listen_start (r : Receiver) (h : r.heard = none) :
    r.listen startEvents = { r with clk := .low, dio := .low, heard := some ([], []) } := by
  obtain ⟨clk, dio, heard, frames⟩ := r
  simp only at h
  subst h
  cases clk <;> cases dio <;> rfl

/-- A whole byte heard in a bracket. -/
theorem listen_wrByte (b : Byte) (bytes : List Byte) (r : Receiver) (h : r.heard = some (bytes, [])) :
    r.listen (wrByteEvents b) =
      { r with clk := .high, dio := .high, heard := some (bytes ++ [b], []) } := by
  obtain ⟨clk, dio, heard, frames⟩ := r
  simp only at h
  subst h
  have split : wrByteEvents b =
      [c0, ⟨.dio, b.getLsbD 0⟩, c1] ++ ([c0, ⟨.dio, b.getLsbD 1⟩, c1] ++ ([c0, ⟨.dio, b.getLsbD 2⟩, c1] ++
      ([c0, ⟨.dio, b.getLsbD 3⟩, c1] ++ ([c0, ⟨.dio, b.getLsbD 4⟩, c1] ++ ([c0, ⟨.dio, b.getLsbD 5⟩, c1] ++
      ([c0, ⟨.dio, b.getLsbD 6⟩, c1] ++ ([c0, ⟨.dio, b.getLsbD 7⟩, c1] ++ [c0, ⟨.dio, true⟩, c1]))))))) := by
    simp [wrByteEvents, bitEvents, ackEvents]
  rw [split]
  simp only [listen_append, listen_group]
  simp only [Receiver.sample, ofBit_beq_high, List.length_nil, List.length_cons, List.nil_append, List.cons_append,
    Nat.reduceAdd, Nat.reduceEqDiff, if_true, if_false, OfNat.zero_ne_ofNat]
  have e := byteOfBits_bits b
  simp only [List.map] at e
  simp only [e, Level.ofBit]

/-- A STOP heard in a bracket after whole bytes: the frame is complete. -/
theorem listen_stop (bytes : List Byte) (r : Receiver) (h : r.heard = some (bytes, [])) :
    r.listen stopEvents = { clk := .high, dio := .high, heard := none, frames := r.frames ++ [bytes] } := by
  obtain ⟨clk, dio, heard, frames⟩ := r
  simp only at h
  subst h
  cases clk <;> cases dio <;> rfl

end Sys2Proof.Machine
end

