-- ==== Sys2Proof/Laws/Loops.lean ====
section
/-!
SUPPORT. What the loops over the four addresses do, what a host operation can answer, and what a step can do.
-/

namespace Sys2Proof.Machine

/-- The frames of DWRITEs of the values v in the given order (R104). -/
def writeFrames (order : List Addr) (v : Addr → Byte) (point : Bool) (bright : BitVec 3) : List (List Byte) :=
  order.flatMap (fun a => dwriteFrames a (v a) point bright)

/-- Four things after a loop that writes entry a with f a. -/
def quadWrites {α : Type} (order : List Addr) (f : Addr → α) (q : Quad α) : Quad α :=
  order.foldl (fun q a => quadSet q a (f a)) q

theorem quadGet_quadWrites {α : Type} (order : List Addr) (f : Addr → α) (q : Quad α) (b : Addr) :
    quadGet (quadWrites order f q) b = if b ∈ order then f b else quadGet q b := by
  induction order generalizing q with
  | nil => simp [quadWrites]
  | cons a as ih =>
    have step : quadWrites (a :: as) f q = quadWrites as f (quadSet q a (f a)) := rfl
    rw [step, ih, quadGet_quadSet]
    by_cases h1 : b ∈ as
    · simp [h1]
    · by_cases h2 : b = a
      · subst h2; simp
      · simp [h1, h2]

/-- A loop over all four addresses writes every entry. -/
theorem quadWrites_all {α : Type} {order : List Addr} (h : order.Perm allAddrs) (f : Addr → α) (q : Quad α) :
    quadWrites order f q = ⟨f 0, f 1, f 2, f 3⟩ := by
  apply quad_ext
  intro b
  rw [quadGet_quadWrites]
  have hb : b ∈ order := h.mem_iff.2 (by revert b; decide)
  rw [if_pos hb]
  obtain rfl | rfl | rfl | rfl := addr_cases b <;> rfl

/-- Re-writing what the entries hold changes nothing (R118). -/
theorem quadWrites_same {α : Type} (order : List Addr) (q : Quad α) : quadWrites order (quadGet q) q = q := by
  apply quad_ext
  intro b
  rw [quadGet_quadWrites]
  split <;> rfl

theorem perm_ne_nil {order : List Addr} (h : order.Perm allAddrs) : order ≠ [] := by
  rintro rfl
  simp at h

/-- All that `for a in order: DWRITE(a, v[a])` does when every value is in the encoder's domain (R104, R111 to R122). -/
theorem writeAll_eq (order : List Addr) (v : Addr → Byte) (s : State) (ho : order ≠ [])
    (hv : ∀ a ∈ order, (enc (v a) s.point).isSome = true) :
    writeAll order v s = { s with
      trace := s.trace ++ (writeFrames order v s.point s.bright).flatMap frameEvents, clk := .high, dio := .high
      seq := s.seq.advance (132 * order.length), bracket := none, buf := quadWrites order v s.buf
      chip := ⟨quadWrites order (fun a => enc (v a) s.point) s.chip.disp, some true, some s.bright⟩ } := by
  induction order generalizing s with
  | nil => exact absurd rfl ho
  | cons a as ih =>
    obtain ⟨seg, hseg⟩ := Option.isSome_iff_exists.1 (hv a (by simp))
    have step : writeAll (a :: as) v s = writeAll as v (dwrite a (v a) s) := rfl
    rw [step, dwrite_eq a (v a) seg s hseg]
    by_cases hn : as = []
    · subst hn
      simp [writeAll, writeFrames, quadWrites]
    · refine (ih _ hn ?_).trans ?_
      · exact fun b hb => hv b (by simp [hb])
      · simp [writeFrames, quadWrites, Nat.mul_add, Nat.add_comm]

/-- All that one DWRITE does, whatever the digit: the events of its frames, the entry of BUF if the encoder has a meaning
for the digit, the shadow told the frames (R104, R105, R47). -/
theorem dwrite_frames (a : Addr) (v : Byte) (s : State) (hb : s.bracket = none) :
    dwrite a v s = { emitAll ((dwriteFrames a v s.point s.bright).flatMap frameEvents) s with
      buf := if (enc v s.point).isSome then quadSet s.buf a v else s.buf
      chip := (dwriteFrames a v s.point s.bright).foldl Chip.told s.chip } := by
  cases h : enc v s.point with
  | none => rw [dwrite_invalid a v s h]; simp [dwriteFrames, h, emitAll]
  | some seg =>
    have stops (ln : Line) (l : Level) :
        levelAfter ln (frameEvents [dataCmd] ++ (frameEvents [addrByte a, seg] ++ frameEvents [ctrlByte s.bright])) l
          = .high := by
      simp only [frameEvents, ← List.append_assoc]
      exact levelAfter_stop _ _ _
    rw [dwrite_eq a v seg s h, emitAll_eq]
    simp [dwriteFrames, h, stops, frameEvents_length, hb]

/-- All that the loop does, whatever the digits (R104, R105, R47). -/
theorem writeAll_frames (order : List Addr) (v : Addr → Byte) (s : State) (hb : s.bracket = none) :
    writeAll order v s = { emitAll ((writeFrames order v s.point s.bright).flatMap frameEvents) s with
      buf := quadWrites (order.filter (fun a => (enc (v a) s.point).isSome)) v s.buf
      chip := (writeFrames order v s.point s.bright).foldl Chip.told s.chip } := by
  induction order generalizing s with
  | nil => rfl
  | cons a as ih =>
    have step : writeAll (a :: as) v s = writeAll as v (dwrite a (v a) s) := rfl
    rw [step, dwrite_frames a (v a) s hb]
    refine (ih _ ?_).trans ?_
    · simp [emitAll_eq, hb]
    · cases h : enc (v a) s.point <;> simp [writeFrames, quadWrites, emitAll_eq, levelAfter_append, h]

/-- The refresh is that loop over the values BUF holds (R118, R120). -/
theorem refresh_eq_writeAll (order : List Addr) (s : State) : refresh order s = writeAll order (quadGet s.buf) s := by
  have same (a : Addr) (t : State) : (dwrite a (quadGet t.buf a) t).buf = t.buf := by
    cases h : enc (quadGet t.buf a) t.point with
    | none => rw [dwrite_invalid a _ t h]
    | some seg => rw [dwrite_eq a _ seg t h, quadSet_quadGet]
  have gen (as : List Addr) (t : State) (h : t.buf = s.buf) :
      as.foldl (fun t a => dwrite a (quadGet t.buf a) t) t = as.foldl (fun t a => dwrite a (quadGet s.buf a) t) t := by
    induction as generalizing t with
    | nil => rfl
    | cons a as ih =>
      simp only [List.foldl_cons]
      rw [← h]
      have e := ih (dwrite a (quadGet t.buf a) t) (by rw [same, h])
      rw [e, h]
  exact gen order s rfl

/-- The frames of DWRITEs of legal digits are those of R65, spelled out. -/
theorem writeFrames_eq_sentFrames (order : List Addr) (v : Addr → Byte) (p : Bool) (b : BitVec 3)
    (hv : ∀ a ∈ order, (enc (v a) p).isSome = true) : writeFrames order v p b = sentFrames order v p b := by
  induction order with
  | nil => rfl
  | cons a as ih =>
    obtain ⟨seg, hseg⟩ := Option.isSome_iff_exists.1 (hv a (by simp))
    have step : writeFrames (a :: as) v p b = dwriteFrames a (v a) p b ++ writeFrames as v p b := rfl
    have step' : sentFrames (a :: as) v p b =
        [[0x44], [a.setWidth 8 ||| 0xC0, (enc (v a) p).getD 0], [0x88 + b.setWidth 8]] ++ sentFrames as v p b := rfl
    rw [step, step', ih (fun b hb => hv b (by simp [hb])), dwriteFrames, hseg]
    rfl

/-- The block is idle: SEQ idle and no bracket open. -/
theorem idle_iff (s : State) : idle s = true ↔ s.seq = .idle ∧ s.bracket = none := by
  simp [idle]

/-- What a host operation can answer: a failed test's status alone, or OK after its whole effect (R110). -/
theorem hostOp_next {failure : Option Status} {act : State → State} {s t : State}
    (h : hostOp failure act s = .next t) :
    idle s = true ∧ ((∃ st, failure = some st ∧ t = answer st s) ∨
      (failure = none ∧ t = answer .ok (finish (act (accept s))))) := by
  unfold hostOp at h
  split at h
  · next hi =>
    refine ⟨hi, ?_⟩
    cases failure with
    | none => exact .inr ⟨rfl, by simpa using h.symm⟩
    | some st => exact .inl ⟨st, rfl, by simpa using h.symm⟩
  · cases h

/-- What a byte in command position can answer. -/
theorem wireOp_next {act : State → State} {s t : State} (h : wireOp act s = .next t) :
    idle s = true ∧ t = act (accept s) := by
  unfold wireOp at h
  split at h
  · next hi => exact ⟨hi, by simpa using h.symm⟩
  · cases h

/-- What a segment byte can answer. -/
theorem execWireSegData_next {p : Bool} {seg : BitVec 7} {s t : State} (h : execWireSegData p seg s = .next t) :
    (∃ b, s.bracket = some [b]) ∧ t = finish (stop (wrByte (segByte p seg) s)) := by
  unfold execWireSegData at h
  split at h
  · next b hb => exact ⟨⟨b, hb⟩, by simpa using h.symm⟩
  · cases h

/-- What a step can do: pause, take the reset input, run an instruction, or refuse a reserved word. -/
theorem step_next {s t : State} (h : step s = .next t) :
    (fetch s = .pause ∧ t = s) ∨
    (∃ s', fetch s = .reset s' ∧ idle s' = true ∧ t = hardReset s') ∨
    (∃ i s', fetch s = .run i s' ∧ exec i s' = .next t) ∨
    (∃ s', fetch s = .reserved s' ∧ idle s' = true ∧ t = answer (.refused .reservedEncoding) s') := by
  unfold step at h
  split at h
  · next hf => exact .inl ⟨hf, by simpa using h.symm⟩
  · next s' hf =>
    unfold takeReset at h
    split at h
    · next hi => exact .inr (.inl ⟨s', hf, hi, by simpa using h.symm⟩)
    · cases h
  · next i s' hf => exact .inr (.inr (.inl ⟨i, s', hf, h⟩))
  · next s' hf =>
    obtain ⟨hi, ⟨st, hst, ht⟩ | ⟨hn, -⟩⟩ := hostOp_next h
    · simp only [Option.some.injEq] at hst
      exact .inr (.inr (.inr ⟨s', hf, hi, by rw [ht, ← hst]⟩))
    · cases hn
  · cases h

/-- The state an instruction is run in: the fetched state with the presented code taken from the port. -/
theorem fetch_state {s s' : State} (h : fetch s = .reset s' ∨ (∃ i, fetch s = .run i s') ∨ fetch s = .reserved s') :
    s' = { s with port := s.port.tail } := by
  unfold fetch at h
  split at h
  · simp at h
  · next rest hp => simpa [hp, eq_comm] using h
  · next w rest hp =>
    split at h <;> simpa [hp, eq_comm] using h
  · next b rest hp =>
    split at h
    · simpa [hp, eq_comm] using h
    · simp at h

end Sys2Proof.Machine
end

