-- ==== Sys2Proof/Laws/Sequencer.lean ====
section
/-!
SUPPORT. What the scripts of Sys2Proof/Machine/Sequencer.lean do: run whole they are the operations of Machine/Ops.lean,
their events are those of the frames, and a script cut after k events is cut inside one of its parts.
-/

namespace Sys2Proof.Machine

@[simp] theorem runScript_nil (s : State) : runScript [] s = s := rfl

@[simp] theorem runScript_cons (m : Micro) (ms : List Micro) (s : State) :
    runScript (m :: ms) s = runScript ms (m.run s) := rfl

@[simp] theorem runScript_append (xs ys : List Micro) (s : State) :
    runScript (xs ++ ys) s = runScript ys (runScript xs s) := by
  simp [runScript]

@[simp] theorem scriptEvents_nil : scriptEvents [] = [] := rfl

@[simp] theorem scriptEvents_append (xs ys : List Micro) :
    scriptEvents (xs ++ ys) = scriptEvents xs ++ scriptEvents ys := by
  simp [scriptEvents]

/-- What takes no event adds none. -/
theorem scriptEvents_quiet {m : Micro} (ms : List Micro) (h : m.event = none) : scriptEvents (m :: ms) = scriptEvents ms := by
  simp [scriptEvents, h]

@[simp] theorem scriptEvents_unless (o : Option Status) (ms : List Micro) :
    scriptEvents (scriptUnless o ms) = match o with
      | some _ => []
      | none => scriptEvents ms := by
  cases o <;> rfl

/-- All that a script does to TRACE, the lines and SEQ is what its events do. -/
theorem runScript_lines (ms : List Micro) (s : State) :
    (runScript ms s).trace = s.trace ++ scriptEvents ms ∧
    (runScript ms s).clk = levelAfter .clk (scriptEvents ms) s.clk ∧
    (runScript ms s).dio = levelAfter .dio (scriptEvents ms) s.dio ∧
    (runScript ms s).seq = s.seq.advance (scriptEvents ms).length := by
  induction ms generalizing s with
  | nil => simp [levelAfter]
  | cons m ms ih =>
    obtain ⟨h1, h2, h3, h4⟩ := ih (m.run s)
    rw [runScript_cons, h1, h2, h3, h4]
    cases m with
    | drive e =>
      obtain ⟨ln, v⟩ := e
      cases ln <;> simp [Micro.run, emit, scriptEvents, Micro.event, levelAfter, Seq.next_advance]
    | _ => exact ⟨rfl, rfl, rfl, rfl⟩

/-- Pin events alone are emitted. -/
theorem runScript_drives (es : List PinEvent) (s : State) : runScript (es.map .drive) s = emitAll es s := by
  simp [runScript, emitAll, List.foldl_map, Micro.run]

@[simp] theorem scriptEvents_drives (es : List PinEvent) : scriptEvents (es.map .drive) = es := by
  induction es with
  | nil => rfl
  | cons e es ih => exact congrArg (e :: ·) ih

@[simp] theorem startScript_run (s : State) : runScript startScript s = start s := by
  rw [startScript, runScript_append, runScript_drives, start]
  exact runScript_cons _ _ _

@[simp] theorem byteScript_run (b : Byte) (s : State) : runScript (byteScript b) s = wrByte b s := by
  rw [byteScript, runScript_append, runScript_drives, wrByte]
  exact runScript_cons _ _ _

@[simp] theorem stopScript_run (s : State) : runScript stopScript s = stop s := by
  rw [stopScript, runScript_append, runScript_drives, stop]
  exact runScript_cons _ _ _

theorem bytesScript_run (bytes : List Byte) (s : State) :
    runScript (bytes.flatMap byteScript) s = bytes.foldl (fun t b => wrByte b t) s := by
  induction bytes generalizing s with
  | nil => rfl
  | cons b bs ih => rw [List.flatMap_cons, runScript_append, byteScript_run, ih, List.foldl_cons]

/-- A frame's script run whole is FRAME (R84). -/
@[simp] theorem frameScript_run (bytes : List Byte) (s : State) : runScript (frameScript bytes) s = frame bytes s := by
  simp only [frameScript, runScript_append, startScript_run, bytesScript_run, stopScript_run]
  rfl

@[simp] theorem scriptEvents_start : scriptEvents startScript = startEvents := rfl

@[simp] theorem scriptEvents_stop : scriptEvents stopScript = stopEvents := rfl

@[simp] theorem scriptEvents_byte (b : Byte) : scriptEvents (byteScript b) = wrByteEvents b := by
  rw [byteScript, scriptEvents_append, scriptEvents_drives]; exact List.append_nil _

@[simp] theorem scriptEvents_frame (bytes : List Byte) : scriptEvents (frameScript bytes) = frameEvents bytes := by
  have h : scriptEvents (bytes.flatMap byteScript) = bytes.flatMap wrByteEvents := by
    induction bytes with
    | nil => rfl
    | cons b bs ih => rw [List.flatMap_cons, scriptEvents_append, scriptEvents_byte, ih, List.flatMap_cons]
  rw [frameScript, scriptEvents_append, scriptEvents_append, h]; rfl

theorem scriptEvents_frames (frames : List (List Byte)) :
    scriptEvents (frames.flatMap frameScript) = frames.flatMap frameEvents := by
  induction frames with
  | nil => rfl
  | cons f fs ih => rw [List.flatMap_cons, scriptEvents_append, scriptEvents_frame, ih, List.flatMap_cons]

/-- A digit write's script run whole is DWRITE (R104, R105). -/
theorem digitScript_run (a : Addr) (v : Byte) (s : State) : runScript (digitScript s.point s.bright a v) s = dwrite a v s := by
  cases h : enc v s.point with
  | none => rw [dwrite_invalid a v s h]; simp [digitScript, h]
  | some seg =>
    simp only [digitScript, h, dwriteFrames, dwrite, txa, txb, txc, List.flatMap_cons, List.flatMap_nil, runScript_append,
      frameScript_run, runScript_cons, runScript_nil, List.append_nil, Micro.run]
    rw [frame_eq [dataCmd] (by simp), frame_eq [addrByte a, seg] (by simp)]

@[simp] theorem scriptEvents_digit (p : Bool) (b : BitVec 3) (a : Addr) (v : Byte) :
    scriptEvents (digitScript p b a v) = (dwriteFrames a v p b).flatMap frameEvents := by
  cases h : enc v p with
  | none => simp [digitScript, h, dwriteFrames]
  | some seg =>
    simp only [digitScript, h]
    rw [scriptEvents_append, scriptEvents_frames]
    exact List.append_nil _

/-- The loop's script run whole is the loop (R111 to R122). -/
theorem writesScript_run (order : List Addr) (v : Addr → Byte) (s : State) :
    runScript (writesScript s.point s.bright order v) s = writeAll order v s := by
  induction order generalizing s with
  | nil => rfl
  | cons a as ih =>
    have step : writeAll (a :: as) v s = writeAll as v (dwrite a (v a) s) := rfl
    have split : writesScript s.point s.bright (a :: as) v =
        digitScript s.point s.bright a (v a) ++ writesScript s.point s.bright as v := rfl
    obtain ⟨-, -, hb, hp, -, -⟩ := dwrite_frame a (v a) s
    rw [step, split, runScript_append, digitScript_run, ← ih, hb, hp]

@[simp] theorem scriptEvents_writes (p : Bool) (b : BitVec 3) (order : List Addr) (v : Addr → Byte) :
    scriptEvents (writesScript p b order v) = (writeFrames order v p b).flatMap frameEvents := by
  induction order with
  | nil => rfl
  | cons a as ih =>
    have split : writesScript p b (a :: as) v = digitScript p b a (v a) ++ writesScript p b as v := rfl
    have split' : writeFrames (a :: as) v p b = dwriteFrames a (v a) p b ++ writeFrames as v p b := rfl
    rw [split, split', scriptEvents_append, scriptEvents_digit, ih, List.flatMap_append]

/-- A script cut after k events has emitted the first k. -/
theorem scriptEvents_upTo (k : Nat) (ms : List Micro) : scriptEvents (scriptUpTo k ms) = (scriptEvents ms).take k := by
  induction ms generalizing k with
  | nil => simp [scriptUpTo]
  | cons m ms ih =>
    cases hm : m.event with
    | none => simpa [scriptUpTo, scriptEvents, hm] using ih k
    | some e =>
      cases k with
      | zero => simp [scriptUpTo, hm]
      | succ k => simpa [scriptUpTo, scriptEvents, hm] using ih k

/-- Cut after all its events, a script is whole. -/
theorem scriptUpTo_all (k : Nat) (ms : List Micro) (h : (scriptEvents ms).length ≤ k) : scriptUpTo k ms = ms := by
  induction ms generalizing k with
  | nil => rfl
  | cons m ms ih =>
    cases hm : m.event with
    | none => simpa [scriptUpTo, hm] using ih k (by simpa [scriptEvents, hm] using h)
    | some e =>
      cases k with
      | zero => simp [scriptEvents, hm] at h
      | succ k => simpa [scriptUpTo, hm] using ih k (by simpa [scriptEvents, hm] using h)

/-- Cut inside its first part, or after it (R26). -/
theorem scriptUpTo_append (k : Nat) (xs ys : List Micro) :
    scriptUpTo k (xs ++ ys) =
      if k < (scriptEvents xs).length then scriptUpTo k xs
      else xs ++ scriptUpTo (k - (scriptEvents xs).length) ys := by
  induction xs generalizing k with
  | nil => simp
  | cons m ms ih =>
    cases hm : m.event with
    | none =>
      rw [scriptEvents_quiet ms hm, List.cons_append]
      simp only [scriptUpTo, hm, ih k]
      split <;> rfl
    | some e =>
      have he : (scriptEvents (m :: ms)).length = (scriptEvents ms).length + 1 := by simp [scriptEvents, hm]
      rw [he, List.cons_append]
      cases k with
      | zero => simp [scriptUpTo, hm]
      | succ k =>
        simp only [scriptUpTo, hm, ih k, Nat.add_lt_add_iff_right, Nat.add_sub_add_right]
        split <;> rfl

/-- The registers, BUF, the shadow and the bracket stand still while pin events alone are emitted. -/
theorem runScript_upTo_drives (k : Nat) (es : List PinEvent) (s : State) :
    runScript (scriptUpTo k (es.map .drive)) s = emitAll (es.take k) s := by
  have h : scriptUpTo k (es.map .drive) = (es.take k).map .drive := by
    induction es generalizing k with
    | nil => simp [scriptUpTo]
    | cons e es ih => cases k <;> simp [scriptUpTo, Micro.event, ih]
  rw [h, runScript_drives]

/-- The parts of a frame that leave the shadow as it is: all but the end of its STOP (R47). -/
theorem runScript_chip (ms : List Micro) (s : State) (h : .closed ∉ ms) : (runScript ms s).chip = s.chip := by
  induction ms generalizing s with
  | nil => rfl
  | cons m ms ih =>
    rw [runScript_cons, ih _ (fun hm => h (by simp [hm]))]
    cases m with
    | drive e => obtain ⟨ln, v⟩ := e; cases ln <;> rfl
    | closed => exact absurd List.mem_cons_self h
    | _ => rfl

/-- Until its last event is out, a frame tells the shadow nothing (R47, log 19). -/
theorem frameScript_upTo_chip (k : Nat) (bytes : List Byte) (s : State) (hk : k < (frameEvents bytes).length) :
    (runScript (scriptUpTo k (frameScript bytes)) s).chip = s.chip := by
  have cut (n : Nat) (ms : List Micro) (m : Micro) (h : m ∈ scriptUpTo n ms) : m ∈ ms := by
    induction ms generalizing n with
    | nil => simp [scriptUpTo] at h
    | cons x xs ih =>
      cases hx : x.event with
      | none =>
        simp only [scriptUpTo, hx, List.mem_cons] at h ⊢
        exact h.imp id (ih n)
      | some e =>
        cases n with
        | zero => simp [scriptUpTo, hx] at h
        | succ n =>
          simp only [scriptUpTo, hx, List.mem_cons] at h ⊢
          exact h.imp id (ih n)
  have split : frameScript bytes =
      (startScript ++ bytes.flatMap byteScript ++ stopEvents.map .drive) ++ [.closed] := by
    simp [frameScript, stopScript]
  have all : (scriptEvents (startScript ++ bytes.flatMap byteScript ++ stopEvents.map .drive)).length =
      (frameEvents bytes).length := by
    rw [← scriptEvents_frame, split, scriptEvents_append]; simp [scriptEvents, Micro.event]
  rw [split, scriptUpTo_append, all, if_pos hk]
  refine runScript_chip _ _ (fun hm => ?_)
  have := cut _ _ _ hm
  simp [startScript, byteScript] at this

/-- After k small steps SEQ is k, or the number of events if that is less (R26). -/
theorem ticks_begin (k : Nat) (i : Instr) (s : State) :
    InFlight.ticks k (.begin i s) = ⟨i, s, min k (events i s).length⟩ := by
  have gen (k n : Nat) (hn : n ≤ (events i s).length) :
      InFlight.ticks k ⟨i, s, n⟩ = ⟨i, s, min (n + k) (events i s).length⟩ := by
    induction k generalizing n with
    | zero => simp [InFlight.ticks, hn]
    | succ k ih =>
      rw [InFlight.ticks]
      by_cases hc : (events i s).length ≤ n
      · have : n = (events i s).length := by omega
        rw [InFlight.tick, InFlight.complete, if_pos (by simpa using hc), ih n hn]
        congr 1; omega
      · rw [InFlight.tick, InFlight.complete, if_neg (by simpa using hc)]
        refine (ih (n + 1) (by omega)).trans ?_
        congr 1; omega
  simpa [InFlight.begin] using gen k 0 (Nat.zero_le _)

/-- What is seen after k events (R26, R50). -/
theorem view_ticks (k : Nat) (i : Instr) (s : State) :
    (InFlight.ticks k (.begin i s)).view = runScript (scriptUpTo (min k (events i s).length) (script i s)) (accept s) := by
  rw [ticks_begin]; rfl

/-- A complete operation's script has been run whole (R26). -/
theorem view_complete (i : Instr) (s : State) :
    (InFlight.ticks (events i s).length (.begin i s)).view = runScript (script i s) (accept s) := by
  rw [view_ticks, Nat.min_self, scriptUpTo_all]
  exact Nat.le_refl _

end Sys2Proof.Machine
end

