-- ==== Sys2Proof/Laws/Exec.lean ====
section
/-!
SUPPORT. What exec answers for every instruction, said once over all states: the failed test's status, or the state that
its event list (spec 10_state.md R26), its registers and its frames give.
-/

namespace Sys2Proof.Machine

/-- The status with which a failed test ends a host operation (R135). -/
def failureOf (i : Instr) (s : State) : Option Status :=
  match i with
  | .create => none
  | .showNumber _ => createdTest s
  | .setDigit a v => firstFailure (createdTest s) (operandTest a v s)
  | .setBright _ => createdTest s
  | .setPoint _ => createdTest s
  | .clear => createdTest s
  | .wireDataCmd => none
  | .wireAddrCmd _ => none
  | .wireSegData _ _ => none
  | .wireDispCtl _ => none

/-- BRIGHT after an operation that runs. -/
def brightAfter (i : Instr) (s : State) : BitVec 3 :=
  match i with
  | .create => 0
  | .showNumber _ => s.bright
  | .setDigit _ _ => s.bright
  | .setBright l => l
  | .setPoint _ => s.bright
  | .clear => s.bright
  | .wireDataCmd => s.bright
  | .wireAddrCmd _ => s.bright
  | .wireSegData _ _ => s.bright
  | .wireDispCtl _ => s.bright

/-- POINT after an operation that runs. -/
def pointAfter (i : Instr) (s : State) : Bool :=
  match i with
  | .create => false
  | .showNumber _ => s.point
  | .setDigit _ _ => s.point
  | .setBright _ => s.point
  | .setPoint p => p
  | .clear => s.point
  | .wireDataCmd => s.point
  | .wireAddrCmd _ => s.point
  | .wireSegData _ _ => s.point
  | .wireDispCtl _ => s.point

/-- The addresses an operation that runs writes, in its order. -/
def addrsOf (i : Instr) (s : State) : List Addr :=
  match i with
  | .create => s.cfg.clearOrder
  | .showNumber _ => s.cfg.showOrder
  | .setDigit a _ => [a.setWidth 2]
  | .setBright _ => s.cfg.refreshOrder
  | .setPoint _ => s.cfg.refreshOrder
  | .clear => s.cfg.clearOrder
  | .wireDataCmd => []
  | .wireAddrCmd _ => []
  | .wireSegData _ _ => []
  | .wireDispCtl _ => []

/-- The digit value an operation that runs writes at each address. -/
def digitsOf (i : Instr) (s : State) : Addr → Byte :=
  match i with
  | .create => fun _ => blankDigit
  | .showNumber n => quadGet (showDigits n)
  | .setDigit _ v => fun _ => v.setWidth 8
  | .setBright _ => quadGet s.buf
  | .setPoint _ => quadGet s.buf
  | .clear => fun _ => blankDigit
  | .wireDataCmd => fun _ => 0
  | .wireAddrCmd _ => fun _ => 0
  | .wireSegData _ _ => fun _ => 0
  | .wireDispCtl _ => fun _ => 0

/-- BUF after an operation that runs: the entries whose digits the encoder has a meaning for (R104, R105). -/
def bufAfter (i : Instr) (s : State) : Quad Byte :=
  quadWrites ((addrsOf i s).filter (fun a => (enc (digitsOf i s a) (pointAfter i s)).isSome)) (digitsOf i s) s.buf

/-- The frames a host operation sends: none when a test fails. -/
def opFrames (i : Instr) (s : State) : List (List Byte) :=
  match failureOf i s with
  | some _ => []
  | none => writeFrames (addrsOf i s) (digitsOf i s) (pointAfter i s) (brightAfter i s)

/-- The state a host operation that runs leaves. -/
def hostAfter (i : Instr) (s : State) : State :=
  { s with
    created := s.created || i == .create
    bright := brightAfter i s
    point := pointAfter i s
    buf := bufAfter i s
    seq := .idle
    clk := levelAfter .clk (events i s) s.clk
    dio := levelAfter .dio (events i s) s.dio
    trace := s.trace ++ events i s
    bracket := none
    chip := (opFrames i s).foldl Chip.told s.chip
    statuses := s.statuses ++ [.ok] }

theorem createdTest_none {s : State} (h : createdTest s = none) : s.created = true := by
  unfold createdTest at h
  split at h
  · assumption
  · cases h

theorem firstFailure_none {t1 t2 : Option Status} (h : firstFailure t1 t2 = none) : t1 = none ∧ t2 = none := by
  cases t1 with
  | none => exact ⟨rfl, h⟩
  | some st => simp [firstFailure] at h

theorem failureOf_none {i : Instr} {s : State} (hi : i.isHost = true) (h : failureOf i s = none) (hc : i ≠ .create) :
    s.created = true := by
  cases i with
  | create => exact absurd rfl hc
  | setDigit a v =>
    exact createdTest_none (firstFailure_none h).1
  | showNumber n => exact createdTest_none h
  | setBright l => exact createdTest_none h
  | setPoint p => exact createdTest_none h
  | clear => exact createdTest_none h
  | wireDataCmd => cases hi
  | wireAddrCmd a => cases hi
  | wireSegData p seg => cases hi
  | wireDispCtl b => cases hi

/-- SETDIGIT's legal operands (R116). -/
theorem setDigitLegal_iff (ok : Bool) (a : BitVec 8) (v : BitVec 16) :
    setDigitLegal ok a v = true ↔ a.toNat ≤ 3 ∧ (v.toNat ≤ 9 ∨ (ok = true ∧ v = 0x7F)) := by
  simp [setDigitLegal]

theorem operandTest_none {a : BitVec 8} {v : BitVec 16} {s : State} (h : operandTest a v s = none) :
    setDigitLegal s.cfg.setDigitBlankOk a v = true := by
  unfold operandTest at h
  split at h
  · assumption
  · cases h

/-- Every digit value that an operation that runs writes is legal (R31 item 5). -/
theorem digitsOf_legal {i : Instr} {s : State} (hi : i.isHost = true) (hf : failureOf i s = none)
    (hb : s.created = true → LegalBuf s.buf) (a : Addr) : LegalDigit (digitsOf i s a) := by
  cases i with
  | create => exact .inr rfl
  | clear => exact .inr rfl
  | showNumber n => exact showDigits_legal n a
  | setDigit x v =>
    obtain ⟨-, h9 | ⟨-, rfl⟩⟩ := (setDigitLegal_iff _ _ _).1 (operandTest_none (firstFailure_none hf).2)
    · left; simp only [digitsOf, BitVec.toNat_setWidth]; omega
    · exact .inr rfl
  | setBright l => exact hb (failureOf_none hi hf (by simp)) a
  | setPoint p => exact hb (failureOf_none hi hf (by simp)) a
  | wireDataCmd => cases hi
  | wireAddrCmd a => cases hi
  | wireSegData p seg => cases hi
  | wireDispCtl b => cases hi

/-- The frames of an operation that runs are those of the values it writes. -/
theorem opFrames_eq {i : Instr} {s : State} (h : failureOf i s = none) :
    opFrames i s = writeFrames (addrsOf i s) (digitsOf i s) (pointAfter i s) (brightAfter i s) := by
  simp [opFrames, h]

/-- The events of a host operation are those of its frames (R26). -/
theorem events_host {i : Instr} (s : State) (hi : i.isHost = true) :
    events i s = (opFrames i s).flatMap frameEvents := by
  cases i with
  | create =>
    simp only [events, script, List.cons_append, List.nil_append]
    rw [scriptEvents_quiet _ rfl, scriptEvents_quiet _ rfl, scriptEvents_quiet _ rfl, scriptEvents_writes]
    rfl
  | showNumber n =>
    simp only [events, script, scriptEvents_unless, opFrames, failureOf, scriptEvents_writes]
    cases createdTest s <;> rfl
  | setDigit a v =>
    simp only [events, script, scriptEvents_unless, opFrames, failureOf, scriptEvents_digit]
    cases firstFailure (createdTest s) (operandTest a v s) <;>
      simp [writeFrames, addrsOf, digitsOf, pointAfter, brightAfter]
  | setBright l =>
    simp only [events, script, scriptEvents_unless, opFrames, failureOf,
      scriptEvents_quiet _ (rfl : (Micro.level l).event = none), scriptEvents_writes]
    cases createdTest s <;> rfl
  | setPoint p =>
    simp only [events, script, scriptEvents_unless, opFrames, failureOf,
      scriptEvents_quiet _ (rfl : (Micro.flag p).event = none), scriptEvents_writes]
    cases createdTest s <;> rfl
  | clear =>
    simp only [events, script, scriptEvents_unless, opFrames, failureOf, scriptEvents_writes]
    cases createdTest s <;> rfl
  | wireDataCmd => cases hi
  | wireAddrCmd a => cases hi
  | wireSegData p seg => cases hi
  | wireDispCtl b => cases hi

/-- The loop of a host operation, on the state with its registers written, leaves that state. -/
theorem hostAfter_eq_writeAll {i : Instr} {s : State} (hi : i.isHost = true) (hf : failureOf i s = none)
    (hb : s.bracket = none) :
    answer .ok (finish (writeAll (addrsOf i s) (digitsOf i s)
      { accept s with
        created := s.created || i == .create, bright := brightAfter i s, point := pointAfter i s })) =
      hostAfter i s := by
  refine (congrArg (fun t => answer .ok (finish t)) (writeAll_frames _ _ _ ?_)).trans ?_
  · exact hb
  · simp [answer, finish, emitAll_eq, accept, hostAfter, events_host s hi, opFrames_eq hf, bufAfter, hb]

/-- The script of a host operation that runs, run whole, is its register writes and then its loop (R26). -/
theorem script_run_host {i : Instr} {s : State} (hi : i.isHost = true) (hf : failureOf i s = none) :
    runScript (script i s) (accept s) = writeAll (addrsOf i s) (digitsOf i s)
      { accept s with
        created := s.created || i == .create, bright := brightAfter i s, point := pointAfter i s } := by
  have hc := failureOf_none hi hf
  rw [← writesScript_run]
  cases i <;> simp only [Instr.isHost, Bool.false_eq_true] at hi <;> simp only [failureOf] at hf <;>
    simp only [ne_eq, reduceCtorEq, not_false_eq_true, true_implies, not_true_eq_false, false_implies] at hc <;>
    simp [script, scriptUnless, hf, Micro.run, accept, setCreated, writeBright, writePoint, brightAfter, pointAfter,
      addrsOf, digitsOf, writesScript, hc]

/-- An operation that a failed test ends has an empty script (R135). -/
theorem script_failed {i : Instr} {s : State} {st : Status} (hf : failureOf i s = some st) : script i s = [] := by
  cases i <;> simp only [failureOf, reduceCtorEq] at hf <;> simp [script, scriptUnless, hf]

/-- What exec answers for a host operation, in every state (R110, R135, R158). -/
theorem exec_host (i : Instr) (s : State) (hi : i.isHost = true) :
    exec i s =
      if idle s then
        match failureOf i s with
        | some st => .next (answer st s)
        | none => .next (hostAfter i s)
      else .fault .operationInProgress := by
  by_cases hidle : idle s = true
  swap
  · cases i <;> simp only [Instr.isHost, Bool.false_eq_true] at hi <;>
      simp [exec, execCreate, execShowNumber, execSetDigit, execSetBright, execSetPoint, execClear, hostOp, hidle]
  have hb := ((idle_iff s).1 hidle).2
  rw [if_pos hidle]
  cases hf : failureOf i s with
  | some st =>
    cases i <;> simp only [failureOf, reduceCtorEq] at hf <;>
      simp [exec, execShowNumber, execSetDigit, execSetBright, execSetPoint, execClear, hostOp, hidle, hf]
  | none =>
    simp only
    rw [← hostAfter_eq_writeAll hi hf hb]
    have hc := failureOf_none hi hf
    cases i <;> simp only [Instr.isHost, Bool.false_eq_true] at hi <;> simp only [failureOf] at hf <;>
      simp only [exec, execCreate, execShowNumber, execSetDigit, execSetBright, execSetPoint, execClear, hostOp, hidle,
        hf, if_true, refresh_eq_writeAll, addrsOf, digitsOf, brightAfter, pointAfter]
    all_goals
      simp only [ne_eq, reduceCtorEq, not_false_eq_true, true_implies, not_true_eq_false, false_implies] at hc
    all_goals simp [accept, setCreated, writeBright, writePoint, writeAll, *]

/-- What a step of a host operation can leave. -/
theorem exec_host_next {i : Instr} {s t : State} (hi : i.isHost = true) (h : exec i s = .next t) :
    idle s = true ∧ ((∃ st, failureOf i s = some st ∧ t = answer st s) ∨ (failureOf i s = none ∧ t = hostAfter i s)) := by
  rw [exec_host i s hi] at h
  split at h
  · next hidle =>
    refine ⟨hidle, ?_⟩
    split at h
    · next st hf => exact .inl ⟨st, hf, by simpa using h.symm⟩
    · next hf => exact .inr ⟨hf, by simpa using h.symm⟩
  · cases h

/-- What WIRE.DATACMD leaves (R101). -/
theorem execWireDataCmd_eq (s : State) (h : idle s = true) :
    execWireDataCmd s = .next { s with
      trace := s.trace ++ frameEvents [dataCmd], clk := .high, dio := .high, seq := .idle, bracket := none } := by
  simp [execWireDataCmd, wireOp, h, txa, frame_eq, finish, accept]

/-- What WIRE.DISPCTL leaves (R103). -/
theorem execWireDispCtl_eq (b : BitVec 3) (s : State) (h : idle s = true) :
    execWireDispCtl b s = .next { s with
      trace := s.trace ++ frameEvents [ctrlByte b], clk := .high, dio := .high, seq := .idle, bracket := none
      chip := { s.chip with on := some true, bright := some b } } := by
  simp [execWireDispCtl, wireOp, h, frame_eq, finish, accept]

/-- What WIRE.ADDRCMD leaves (R102). -/
theorem execWireAddrCmd_eq (a : Addr) (s : State) (h : idle s = true) :
    execWireAddrCmd a s = .next { s with
      trace := s.trace ++ (startEvents ++ wrByteEvents (addrByte a)), clk := .high, dio := .high
      seq := .running 31, bracket := some [addrByte a] } := by
  simp [execWireAddrCmd, wireOp, h, wrByte_eq, start_eq, accept, Seq.advance]

/-- What WIRE.SEGDATA leaves after the byte b of the open bracket (R102). -/
theorem execWireSegData_eq (p : Bool) (seg : BitVec 7) (b : Byte) (s : State) (h : s.bracket = some [b]) :
    execWireSegData p seg s = .next { s with
      trace := s.trace ++ (wrByteEvents (segByte p seg) ++ stopEvents), clk := .high, dio := .high
      seq := .idle, bracket := none, chip := s.chip.told [b, segByte p seg] } := by
  simp [execWireSegData, h, wrByte_eq, stop_eq, finish]

end Sys2Proof.Machine
end

