-- ==== Sys2Proof/Laws/PerInstr.lean ====
section
/-!
SUPPORT. For every instruction: what it encodes to selects its own row of opcode_table.json, by the row's mask and match
(spec 30_encoding.md R61 to R64, R68).
-/

namespace Sys2Proof.Laws.SelectsRow

/-- The encoding of a well-formed instruction selects the instruction's row. -/
def Statement (i : Instr) : Prop := i.wellFormed = true → i.row.selectedBy (encode i) = true

/-- A format H word selects a row if its bits under the mask are those of the match. -/
theorem selected_of_bits (op : BitVec 4) (a : BitVec 8) (n : BitVec 16) (r : TableRow)
    (h : ∀ i < 32, ((commandWord op a n).getLsbD i && r.mask.getLsbD i) = r.value.getLsbD i) :
    r.selectedBy (.command (commandWord op a n)) = true := by
  have e : commandWord op a n &&& r.mask = r.value :=
    BitVec.eq_of_getLsbD_eq (fun i hi => by rw [BitVec.getLsbD_and]; exact h i hi)
  simp [TableRow.selectedBy, Code.bits, e]

theorem create : Statement .create := fun _ => by decide

theorem showNumber (n : Nat) : Statement (.showNumber n) := fun _ =>
  selected_of_bits _ _ _ _ (fun i hi => by
    rw [commandWord_getLsbD]
    interval_cases i <;> simp [Instr.row])

theorem setDigit (a : BitVec 8) (v : BitVec 16) : Statement (.setDigit a v) := fun _ =>
  selected_of_bits _ _ _ _ (fun i hi => by
    rw [commandWord_getLsbD]
    interval_cases i <;> simp [Instr.row])

theorem setBright (l : BitVec 3) : Statement (.setBright l) := fun _ => by
  revert l
  decide

theorem setPoint (p : Bool) : Statement (.setPoint p) := fun _ => by
  revert p
  decide

theorem clear : Statement .clear := fun _ => by decide

theorem wireDataCmd : Statement .wireDataCmd := fun _ => by decide

theorem wireAddrCmd (a : BitVec 2) : Statement (.wireAddrCmd a) := fun _ => by
  revert a
  decide

theorem wireSegData (p : Bool) (s : BitVec 7) : Statement (.wireSegData p s) := fun _ => by
  simp [TableRow.selectedBy, Instr.row]

theorem wireDispCtl (b : BitVec 3) : Statement (.wireDispCtl b) := fun _ => by
  revert b
  decide

end Sys2Proof.Laws.SelectsRow
end

