-- ==== Sys2Proof/Machine/Text.lean ====
section
/-!
DEFINITION. The textual form of a program (spec 30_encoding.md R76): one operation per line, the mnemonic, then its
operands separated by commas, numbers decimal or `0x` hexadecimal, `#` to the end of the line a comment. It carries no
semantics (D23; log 17). Text is a list of characters.
-/

namespace Sys2Proof.Machine

/-- The value of a character of a run of count digits that begins at the character first, whose value is low. -/
def runDigit (first : Char) (count low : Nat) (c : Char) : Option Nat :=
  let place := c.val.toNat - first.val.toNat
  if first.val ≤ c.val ∧ place < count then some (low + place) else none

/-- The value of a digit of a number: ten decimal digits, and six letters more, of either case, in a hexadecimal one. -/
def charDigit (c : Char) : Option Nat :=
  [runDigit '0' 10 0 c, runDigit 'A' 6 10 c, runDigit 'a' 6 10 c].findSome? id

/-- Digits in a base, most significant first, after the value acc. -/
def parseDigits (base acc : Nat) : List Char → Option Nat
  | [] => some acc
  | c :: cs =>
    match charDigit c with
    | some d => if d < base then parseDigits base (acc * base + d) cs else none
    | none => none

/-- A number, decimal or `0x` hexadecimal (R76). -/
def parseNumber (cs : List Char) : Option Nat :=
  match cs with
  | [] => none
  | '0' :: 'x' :: c :: rest => parseDigits 16 0 (c :: rest)
  | c :: rest => parseDigits 10 0 (c :: rest)

/-- The pieces between the characters equal to sep. -/
def splitAtChar (sep : Char) : List Char → List (List Char)
  | [] => [[]]
  | c :: cs =>
    if c = sep then [] :: splitAtChar sep cs
    else
      match splitAtChar sep cs with
      | [] => [[c]]
      | piece :: pieces => (c :: piece) :: pieces

/-- A space or a tabulator. -/
def isBlankChar (c : Char) : Bool := c == ' ' || c == '\t'

/-- The text without the blanks at its two ends. -/
def trimBlanks (cs : List Char) : List Char :=
  ((cs.dropWhile isBlankChar).reverse.dropWhile isBlankChar).reverse

/-- The numbers of a list of operand texts, if each is one. -/
def parseNumbers : List (List Char) → Option (List Nat)
  | [] => some []
  | t :: ts =>
    match parseNumber (trimBlanks t), parseNumbers ts with
    | some n, some ns => some (n :: ns)
    | _, _ => none

/-- The operation of a mnemonic and its operands; an operand that cannot be presented has none (R67, R76). -/
def operationOf (mnemonic : List Char) (operands : List Nat) : Option Instr :=
  match operands with
  | [] =>
    if mnemonic = ['C', 'R', 'E', 'A', 'T', 'E'] then some .create
    else if mnemonic = ['C', 'L', 'E', 'A', 'R'] then some .clear
    else none
  | [n] =>
    if mnemonic = ['S', 'H', 'O', 'W'] then (if n < 2 ^ numW then some (.showNumber n) else none)
    else if mnemonic = ['B', 'R', 'I', 'G', 'H', 'T'] then
      (if n < 8 then some (.setBright (BitVec.ofNat 3 n)) else none)
    else if mnemonic = ['P', 'O', 'I', 'N', 'T'] then (if n < 2 then some (.setPoint (n == 1)) else none)
    else none
  | [a, v] =>
    if mnemonic = ['S', 'E', 'T', 'D', 'I', 'G', 'I', 'T'] then
      (if a < 256 ∧ v < 65536 then some (.setDigit (BitVec.ofNat 8 a) (BitVec.ofNat 16 v)) else none)
    else none
  | _ => none

/-- What one line says: nothing (`some none`: blank, or a comment alone), an operation, or no line of a program. -/
def parseLine (line : List Char) : Option (Option Instr) :=
  let text := trimBlanks (line.takeWhile (· != '#'))
  if text = [] then some none
  else
    let mnemonic := text.takeWhile (fun c => !isBlankChar c)
    let rest := trimBlanks (text.dropWhile (fun c => !isBlankChar c))
    match parseNumbers (if rest = [] then [] else splitAtChar ',' rest) with
    | some operands => (operationOf mnemonic operands).map some
    | none => none

/-- The operations of the lines in their order, if each is a line of a program. -/
def parseLines : List (List Char) → Option (List Instr)
  | [] => some []
  | l :: ls =>
    match parseLine l, parseLines ls with
    | some (some i), some is => some (i :: is)
    | some none, some is => some is
    | _, _ => none

/-- A program's text, one operation per line (R76). -/
def parseProgram (text : List Char) : Option (List Instr) := parseLines (splitAtChar '\n' text)

end Sys2Proof.Machine
end

