-- ==== Sys2Proof/Tests/Slice0.lean ====
section
/-!
SUPPORT. Tests: expected values are those of spec 95_test_vectors.md or written out from the encodings, never the model's
own answers. The witnesses at the end meet the hypotheses of the statements.
-/

namespace Sys2Proof.Tests

open Machine

/-- A block after CREATE and SHOW 1234, its trace cut to one event. -/
def shown : State :=
  { State.reset with
    created := true, buf := ⟨1, 2, 3, 4⟩, clk := .high, dio := .high, trace := [c1]
    chip := ⟨⟨some 0x06, some 0x5B, some 0x4F, some 0x66⟩, some true, some 0⟩ }

/-- The same with a TXB opened at address 1. -/
def opened : State := { shown with seq := .running 31, bracket := some [0xC1] }

/-- The next state, or the given one if the outcome is a stop. -/
def nextOr (s : State) : Host.Outcome State Fault Refusal → State
  | .next t => t
  | .fault _ => s
  | .refused _ => s

/-- What is presented next. -/
def presenting (i : Input) (s : State) : State := { s with port := [i] }

def isNext : Host.Outcome State Fault Refusal → Bool
  | .next _ => true
  | .fault _ => false
  | .refused _ => false

/-! Well-formedness: a term each check refuses, and one beside it that it takes -/

theorem test_wf_show_refuses : (Instr.showNumber 65536).wellFormed = false := by decide
theorem test_wf_show_takes : (Instr.showNumber 65535).wellFormed = true := by decide
theorem test_wf_segment_refuses : (Instr.wireSegData false 0x01).wellFormed = false := by decide
theorem test_wf_segment_takes : (Instr.wireSegData true 0x71).wellFormed = true := by decide

/-! Decoding: words bit by bit from R68 (95_test_vectors.md section 2.5), bytes from R61 to R64 -/

theorem test_decode_create : decode 0b00000000000000000000000000000000 = .ok .create := by decide
theorem test_decode_show : decode 0b00010000000000000000010011010010 = .ok (.showNumber 1234) := by decide
theorem test_decode_setDigit : decode 0b00100000000000110000000000000100 = .ok (.setDigit 3 4) := by decide
theorem test_decode_bright : decode 0b00110000000000000000000000000111 = .ok (.setBright 7) := by decide
theorem test_decode_point : decode 0b01000000000000000000000000000001 = .ok (.setPoint true) := by decide
theorem test_decode_clear : decode 0b01010000000000000000000000000000 = .ok .clear := by decide
theorem test_decode_wire :
    decodeWire .command 0b01000100 = .ok .wireDataCmd ∧ decodeWire .command 0b11000010 = .ok (.wireAddrCmd 2) ∧
    decodeWire .segment 0b11100110 = .ok (.wireSegData true 0x66) ∧
    decodeWire .command 0b10001101 = .ok (.wireDispCtl 5) := by decide

/-- The reserved words of section 2.5, each by the class of R71. -/
theorem test_decode_reserved :
    decode 0x00000001 = .error .unusedField ∧ decode 0x10010000 = .error .unusedField ∧
    decode 0x21000000 = .error .zeroField ∧ decode 0x30000008 = .error .levelBits ∧
    decode 0x40000002 = .error .flagBits ∧ decode 0x50000001 = .error .unusedField ∧
    decode 0x60000000 = .error .reservedOp ∧ decode 0xF0000000 = .error .reservedOp ∧
    decode 0xFFFFFFFF = .error .zeroField ∧ decodeWire .command 0x40 = .error .neverSent ∧
    decodeWire .command 0xC4 = .error .neverSent ∧ decodeWire .command 0x80 = .error .neverSent := by decide

/-- The words of the spec's programs P1 to P4. -/
theorem test_encode :
    encode (.showNumber 10005) = .command 0x10002715 ∧ encode (.setDigit 1 10) = .command 0x2001000A ∧
    encode (.setBright 5) = .command 0x30000005 ∧ encode (.setPoint true) = .command 0x40000001 ∧
    encode .clear = .command 0x50000000 ∧ encode (.wireSegData true 0x6F) = .wire 0xEF := by decide

/-! The bus, section 2.1 -/

theorem test_wrByte_44 :
    wrByteEvents 0x44 = [c0, d0, c1, c0, d0, c1, c0, d1, c1, c0, d0, c1, c0, d0, c1, c0, d0, c1, c0, d1, c1, c0, d0, c1,
      c0, d1, c1] := by decide +kernel

theorem test_wrByte_8D :
    wrByteEvents 0x8D = [c0, d1, c1, c0, d0, c1, c0, d1, c1, c0, d1, c1, c0, d0, c1, c0, d0, c1, c0, d0, c1, c0, d1, c1,
      c0, d1, c1] := by decide +kernel

/-- The complete trace of DWRITE(3, 4), section 2.3. -/
theorem test_dwrite_3_4 :
    (dwrite 3 4 { shown with trace := [] }).trace =
      [c1, d1, d0, c0, c0, d0, c1, c0, d0, c1, c0, d1, c1, c0, d0, c1, c0, d0, c1, c0, d0, c1, c0, d1, c1, c0, d0, c1,
       c0, d1, c1, c0, d0, c1, d1, c1, d1, d0, c0, c0, d1, c1, c0, d1, c1, c0, d0, c1, c0, d0, c1, c0, d0, c1, c0, d0,
       c1, c0, d1, c1, c0, d1, c1, c0, d1, c1, c0, d0, c1, c0, d1, c1, c0, d1, c1, c0, d0, c1, c0, d0, c1, c0, d1, c1,
       c0, d1, c1, c0, d0, c1, c0, d1, c1, c0, d0, c1, d1, c1, d1, d0, c0, c0, d0, c1, c0, d0, c1, c0, d0, c1, c0, d1,
       c1, c0, d0, c1, c0, d0, c1, c0, d0, c1, c0, d1, c1, c0, d1, c1, c0, d0, c1, d1] := by decide +kernel

/-- Section 2.2 and 2.3. -/
theorem test_enc :
    enc 8 true = some 0xFF ∧ enc 15 true = some 0xF1 ∧ enc 16 false = none ∧ enc 0x7E true = none ∧
    enc 0x80 false = none ∧ dwriteFrames 1 2 true 5 = [[0x44], [0xC1, 0xDB], [0x8D]] := by decide

/-- The bands of SHOW at their edges, section 2.4. -/
theorem test_show_bands :
    [0, 9, 10, 99, 100, 305, 999, 1000, 9999, 10000, 10005, 65535].map showDigits =
      [⟨0x7F, 0x7F, 0x7F, 0⟩, ⟨0x7F, 0x7F, 0x7F, 9⟩, ⟨0x7F, 0x7F, 1, 0⟩, ⟨0x7F, 0x7F, 9, 9⟩, ⟨0x7F, 1, 0, 0⟩,
       ⟨0x7F, 3, 0, 5⟩, ⟨0x7F, 9, 9, 9⟩, ⟨1, 0, 0, 0⟩, ⟨9, 9, 9, 9⟩, ⟨0, 0, 0, 0⟩, ⟨0, 0, 0, 5⟩, ⟨5, 5, 3, 5⟩] := by decide

/-! The host operations, sections 2.4, 2.6 and 2.7 -/

/-- CREATE from reset (section 2.6). -/
theorem test_create :
    let t := nextOr State.reset (exec .create State.reset)
    t.trace = [[0x44], [0xC0, 0x00], [0x88], [0x44], [0xC1, 0x00], [0x88], [0x44], [0xC2, 0x00], [0x88], [0x44],
      [0xC3, 0x00], [0x88]].flatMap frameEvents ∧
    t.created = true ∧ t.buf = ⟨0x7F, 0x7F, 0x7F, 0x7F⟩ ∧ t.clk = .high ∧ t.dio = .high ∧ t.statuses = [.ok] := by
  rw [exec_host _ _ rfl]; decide +kernel

/-- SHOW 1234 after CREATE, the frames in the order sent, address 3 first. -/
theorem test_show :
    let t := nextOr shown (exec (.showNumber 1234) { shown with trace := [], buf := ⟨0x7F, 0x7F, 0x7F, 0x7F⟩ })
    t.trace = [[0x44], [0xC3, 0x66], [0x88], [0x44], [0xC2, 0x4F], [0x88], [0x44], [0xC1, 0x5B], [0x88], [0x44],
      [0xC0, 0x06], [0x88]].flatMap frameEvents ∧
    t.buf = ⟨1, 2, 3, 4⟩ ∧ t.statuses = [.ok] := by
  rw [exec_host _ _ rfl]; decide +kernel

/-- SETDIGIT 0, 9. -/
theorem test_setDigit :
    let t := nextOr shown (exec (.setDigit 0 9) { shown with trace := [] })
    t.trace = [[0x44], [0xC0, 0x6F], [0x88]].flatMap frameEvents ∧ t.buf = ⟨9, 2, 3, 4⟩ ∧ t.statuses = [.ok] := by
  rw [exec_host _ _ rfl]; decide +kernel

/-- The invalid operands of section 2.4, and 0x7F under SETDIGIT_BLANK_OK. -/
theorem test_setDigit_invalid :
    ([(4, 1), (0, 10), (0, 15), (0, 0x7F), (4, 10), (255, 0), (0, 65535)] : List (BitVec 8 × BitVec 16)).map
        (fun o => nextOr State.reset (exec (.setDigit o.1 o.2) shown)) =
      List.replicate 7 { shown with statuses := [.invalidArgument] } ∧
    (nextOr State.reset (exec (.setDigit 0 0x7F)
      { shown with cfg := { defaultConfig with setDigitBlankOk := true } })).buf = ⟨0x7F, 2, 3, 4⟩ := by decide +kernel

/-- BRIGHT 5. -/
theorem test_bright :
    let t := nextOr shown (exec (.setBright 5) { shown with trace := [] })
    t.trace = [[0x44], [0xC0, 0x06], [0x8D], [0x44], [0xC1, 0x5B], [0x8D], [0x44], [0xC2, 0x4F], [0x8D], [0x44],
      [0xC3, 0x66], [0x8D]].flatMap frameEvents ∧
    t.bright = 5 ∧ t.buf = ⟨1, 2, 3, 4⟩ := by
  rw [exec_host _ _ rfl]; decide +kernel

/-- POINT 1. -/
theorem test_point :
    let t := nextOr shown (exec (.setPoint true) { shown with trace := [] })
    t.trace = [[0x44], [0xC0, 0x86], [0x88], [0x44], [0xC1, 0xDB], [0x88], [0x44], [0xC2, 0xCF], [0x88], [0x44],
      [0xC3, 0xE6], [0x88]].flatMap frameEvents ∧
    t.point = true ∧ t.buf = ⟨1, 2, 3, 4⟩ := by
  rw [exec_host _ _ rfl]; decide +kernel

/-- CLEAR from POINT = 1, BRIGHT = 5 keeps both. -/
theorem test_clear :
    let t := nextOr shown (exec .clear { shown with trace := [], point := true, bright := 5 })
    t.trace = [[0x44], [0xC0, 0x80], [0x8D], [0x44], [0xC1, 0x80], [0x8D], [0x44], [0xC2, 0x80], [0x8D], [0x44],
      [0xC3, 0x80], [0x8D]].flatMap frameEvents ∧
    t.point = true ∧ t.bright = 5 ∧ t.buf = ⟨0x7F, 0x7F, 0x7F, 0x7F⟩ := by
  rw [exec_host _ _ rfl]; decide +kernel

/-- Before CREATE (section 2.7): the CREATED test comes before the operand test, and decoding before both. -/
theorem test_refused_before_create :
    nextOr shown (exec (.setDigit 9 99) State.reset) =
      { State.reset with statuses := [.refused .notCreated] } ∧
    nextOr shown (step (presenting (.code (.command 0x60000000)) State.reset)) =
      { State.reset with statuses := [.refused .reservedEncoding] } := by decide

/-! The wire bytes -/

/-- TXB(3, 0x66), R102's worked example, byte by byte. -/
theorem test_wire_txb :
    let t := nextOr shown (exec (.wireAddrCmd 3) { shown with trace := [] })
    let u := nextOr shown (exec (.wireSegData false 0x66) t)
    t.bracket = some [0xC3] ∧ t.seq = .running 31 ∧ u.seq = .idle ∧ u.chip.disp.at3 = some 0x66 ∧
    u.trace = [c1, d1, d0, c0, c0, d1, c1, c0, d1, c1, c0, d0, c1, c0, d0, c1, c0, d0, c1, c0, d0, c1, c0, d1, c1, c0, d1,
      c1, c0, d1, c1, c0, d0, c1, c0, d1, c1, c0, d1, c1, c0, d0, c1, c0, d0, c1, c0, d1, c1, c0, d1, c1, c0, d0, c1, c0,
      d1, c1, c0, d0, c1, d1] := by decide +kernel

theorem test_wire_ctl :
    let t := nextOr shown (exec (.wireDispCtl 5) shown)
    t.chip = { shown.chip with bright := some 5 } ∧ t.bright = 0 ∧ t.seq = .idle := by decide +kernel

theorem test_wire_stops :
    (match exec (.wireSegData false 0x66) shown with
      | .refused .byteOutsideBracket => true
      | _ => false) = true ∧
    (match exec .wireDataCmd opened with
      | .fault .operationInProgress => true
      | _ => false) = true ∧
    (match step (presenting (.code (.wire 0x40)) shown) with
      | .refused .neverSentByte => true
      | _ => false) = true := by decide

/-! Steps -/

/-- On a word of each row, the next step from reset runs the row's instruction. -/
theorem test_withFetchWord :
    ([(32, 0x00000000), (32, 0x100004D2), (32, 0x20030004), (32, 0x30000005), (32, 0x40000001), (32, 0x50000000),
      (8, 0x44), (8, 0xC2), (8, 0x00), (8, 0x66), (8, 0x8D)] : List (Nat × Nat)).map
        (fun w => (decodeTableWord w.1 w.2, isNext (step (State.reset.withFetchWord w.1 w.2)))) =
      [(some .create, true), (some (.showNumber 1234), true), (some (.setDigit 3 4), true), (some (.setBright 5), true),
       (some (.setPoint true), true), (some .clear, true), (some .wireDataCmd, true), (some (.wireAddrCmd 2), true),
       (some (.wireSegData false 0x00), true), (some (.wireSegData false 0x66), true), (some (.wireDispCtl 5), true)] := by
  decide +kernel

theorem test_reset_input :
    nextOr opened (step (presenting .reset { shown with statuses := [.ok] })) =
      { State.reset with buf := ⟨1, 2, 3, 4⟩ } := by decide

theorem test_setPin : [c1, d0].map (PinEvent.setPin { defaultConfig with clkPin := 7, dioPin := 9 }) =
    [(7, true), (9, false)] := by decide

/-- The receiver of R56 hears R102's frame. -/
theorem test_receiver :
    (Receiver.initial.listen (frameEvents [0xC3, 0x66])).frames = [[0xC3, 0x66]] := by decide +kernel

/-- The small-step sequencer after 3 and after all 132 events of SETDIGIT 0, 9 (R26, R164). -/
theorem test_sequencer :
    (InFlight.ticks 3 (.begin (.setDigit 0 9) shown)).view.seq = .running 3 ∧
    (InFlight.ticks 3 (.begin (.setDigit 0 9) shown)).view.dio = .low ∧
    (InFlight.ticks 131 (.begin (.setDigit 0 9) shown)).complete = false ∧
    (InFlight.ticks 200 (.begin (.setDigit 0 9) shown)).view.seq = .running 132 := by
  simp only [ticks_begin]; decide +kernel

/-- What is seen of an operation, accepted in the state shown, after k events. -/
def seen (k : Nat) (i : Instr) : State := (InFlight.ticks k (.begin i shown)).view

/-- R50 and R119 (e): in BRIGHT 5 the new level is in force when the first TXC is out, event 132. -/
theorem test_bright_in_flight :
    [0, 97, 131, 132].map (fun k => (seen k (.setBright 5)).chip.bright) = [some 0, some 0, some 0, some 5] := by
  simp only [seen, view_ticks]; decide +kernel

/-- R50 and R161: in SHOW 5678 address 3 shows 8 when the first TXB is out, event 97, and address 2 shows 7 at event 229,
when address 1 still shows 2; BUF[3] is recorded when the DWRITE is over. -/
theorem test_show_in_flight :
    [96, 97].map (fun k => (seen k (.showNumber 5678)).chip.disp) =
      [⟨some 0x06, some 0x5B, some 0x4F, some 0x66⟩, ⟨some 0x06, some 0x5B, some 0x4F, some 0x7F⟩] ∧
    (seen 229 (.showNumber 5678)).chip.disp = ⟨some 0x06, some 0x5B, some 0x07, some 0x7F⟩ ∧
    [131, 132].map (fun k => (seen k (.showNumber 5678)).buf) = [⟨1, 2, 3, 4⟩, ⟨1, 2, 3, 8⟩] := by
  simp only [seen, view_ticks]; decide +kernel

/-- R76: the digits of a number, and the characters beside them. -/
theorem test_digits :
    ['0', '9', 'A', 'F', 'a', 'f', '/', ':', '@', 'G', 'g'].map charDigit =
      [some 0, some 9, some 10, some 15, some 10, some 15, none, none, none, none, none] := by decide

/-- The program of R76, with a comment and a hexadecimal number. -/
theorem test_text :
    parseProgram ['C', 'R', 'E', 'A', 'T', 'E', '\n', 'S', 'H', 'O', 'W', ' ', '1', '2', '3', '4', '\n', 'S', 'E', 'T',
      'D', 'I', 'G', 'I', 'T', ' ', '0', ',', ' ', '9', '\n', 'B', 'R', 'I', 'G', 'H', 'T', ' ', '0', 'x', '5', '\n', 'P',
      'O', 'I', 'N', 'T', ' ', '1', ' ', '#', 'o', 'n', '\n', '\n', 'C', 'L', 'E', 'A', 'R'] =
      some [.create, .showNumber 1234, .setDigit 0 9, .setBright 5, .setPoint true, .clear] ∧
    parseLine ['B', 'R', 'I', 'G', 'H', 'T', ' ', '8'] = none := by decide

/-! Witnesses: each meets the hypotheses of the statements named -/

/-- The host operations' results, each band and operand edge being free of hypotheses (Create, Show, Bright, Point,
Clear). -/
theorem witness_host_operation :
    idle shown = true ∧ shown.cfg.Legal ∧ shown.created = true ∧ LegalBuf shown.buf := by
  refine ⟨by decide, by decide, by decide, by decide⟩

/-- SetDigitWritesOneDigit: its hypotheses, and its case of legal operands at their edges and under SETDIGIT_BLANK_OK. -/
theorem witness_setDigit_legal :
    idle shown = true ∧ shown.created = true ∧ (3 : BitVec 8).toNat ≤ 3 ∧
    ((9 : BitVec 16).toNat ≤ 9 ∨ (shown.cfg.setDigitBlankOk = true ∧ (9 : BitVec 16) = 0x7F)) ∧
    ((0x7F : BitVec 16).toNat ≤ 9 ∨
      ({ defaultConfig with setDigitBlankOk := true }.setDigitBlankOk = true ∧ (0x7F : BitVec 16) = 0x7F)) := by decide

/-- SetDigitInvalidLeavesNothingBehind at the first address and the first value out of range. -/
theorem witness_setDigit_invalid :
    idle shown = true ∧ shown.created = true ∧ 3 < (4 : BitVec 8).toNat ∧
    (9 < (10 : BitVec 16).toNat ∧ (shown.cfg.setDigitBlankOk = false ∨ (10 : BitVec 16) ≠ 0x7F)) ∧
    (9 < (0x7F : BitVec 16).toNat ∧ (shown.cfg.setDigitBlankOk = false ∨ (0x7F : BitVec 16) ≠ 0x7F)) := by decide

/-- ShowTruncatesToTheLowestFourDigits: a number above 9999 is shown. -/
theorem witness_show_large :
    10000 ≤ 10005 ∧ shown.cfg.Legal ∧ shown.created = true ∧ isNext (exec (.showNumber 10005) shown) = true := by
  refine ⟨by decide, by decide, by decide, by decide +kernel⟩

/-- RefusedBeforeCreate. -/
theorem witness_before_create :
    (Instr.setPoint true).isHost = true ∧ Instr.setPoint true ≠ .create ∧ idle State.reset = true ∧
    State.reset.created = false := by decide

/-- NoStepWhileAnOperationIsInProgress. -/
theorem witness_busy :
    Instr.clear.position = .command ∧ idle opened = false ∧ (presenting .reset opened).port = .reset :: [] ∧
    idle (presenting .reset opened) = false := by decide

/-- TestsAreMadeInOrder, a witness for each of its three clauses. -/
theorem witness_tests_in_order :
    (∃ e, decode 0x60000000 = .error e) ∧ idle (presenting (.code (.command 0x60000000)) State.reset) = true ∧
    decode 0x20040001 = .ok (.setDigit 4 1) ∧ Instr.setDigit 4 1 ≠ .create ∧ State.reset.created = false ∧
    shown.created = true ∧ setDigitLegal shown.cfg.setDigitBlankOk 4 1 = false := by
  refine ⟨⟨.reservedOp, by decide⟩, by decide, by decide, by decide, by decide, by decide, by decide⟩

/-- The wire bytes' results: a block idle, and one with the bracket of TXB open or not. -/
theorem witness_wire :
    idle shown = true ∧ opened.bracket = some [(1 : Addr).setWidth 8 ||| 0xC0] ∧ shown.bracket = none := by decide

/-- StepRunsTheDecodedInstruction, with a command word and with a byte in each place. -/
theorem witness_step_runs :
    decodeCode (position (presenting (.code (.command 0x30000005)) shown)) (.command 0x30000005) = .ok (.setBright 5) ∧
    decodeCode (position (presenting (.code (.wire 0x44)) shown)) (.wire 0x44) = .ok .wireDataCmd ∧
    decodeCode (position (presenting (.code (.wire 0x44)) opened)) (.wire 0x44) = .ok (.wireSegData false 0x44) := by decide

/-- ReservedWordIsRefused. -/
theorem witness_reserved_word :
    idle (presenting (.code (.command 0x30000008)) State.reset) = true ∧
    ∀ r ∈ commandRows, (0x30000008 : BitVec 32) &&& r.mask ≠ r.value := by decide

/-- NeverSentByteIsRefused, just above the address commands. -/
theorem witness_never_sent :
    (presenting (.code (.wire 0xC4)) shown).bracket = none ∧ (0xC4 : Byte) ≠ 0x44 ∧
    ¬(0xC0 ≤ (0xC4 : Byte).toNat ∧ (0xC4 : Byte).toNat ≤ 0xC3) ∧
    ¬(0x88 ≤ (0xC4 : Byte).toNat ∧ (0xC4 : Byte).toNat ≤ 0x8F) := by decide

/-- ResetInputDoesTheLeast and PauseChangesNothing. -/
theorem witness_reset_and_pause :
    (presenting .reset shown).port = .reset :: [] ∧ idle (presenting .reset shown) = true ∧ shown.port = [] := by decide

/-- BoundaryInv in a created state, of which the next step, a host operation, answers a next state
(StepKeepsTheInvariant, HostOperationsSendOnlyDigitWrites). -/
theorem witness_invariant :
    BoundaryInv (presenting (.code (.command 0x30000005)) shown) ∧
    isNext (step (presenting (.code (.command 0x30000005)) shown)) = true ∧
    isNext (exec (.setBright 5) (presenting (.code (.command 0x30000005)) shown)) = true :=
  ⟨⟨by decide, fun _ => by decide, .inr ⟨by decide, rfl, rfl⟩, fun _ => by decide, .inl ⟨rfl, rfl⟩⟩, by decide +kernel,
    by decide +kernel⟩

/-- BoundaryInv with the bracket of a TXB open, and the segment byte presented (StepKeepsTheInvariant). -/
theorem witness_invariant_opened :
    BoundaryInv (presenting (.code (.wire 0x66)) opened) ∧
    isNext (step (presenting (.code (.wire 0x66)) opened)) = true :=
  ⟨⟨by decide, fun _ => by decide, .inr ⟨by decide, rfl, rfl⟩, fun _ => by decide, .inr ⟨rfl, 1, rfl⟩⟩,
    by decide +kernel⟩

/-- OrdersChangeOnlyTheTrace: an operation in a state that meets BoundaryInv, and a configuration with other orders. -/
theorem witness_other_orders :
    let c : Config := ⟨[0, 1, 2, 3], [3, 2, 1, 0], [2, 0, 3, 1], false, 4, 5⟩
    BoundaryInv shown ∧ c.Legal ∧ c.setDigitBlankOk = shown.cfg.setDigitBlankOk ∧ isNext (exec .clear shown) = true :=
  ⟨⟨by decide, fun _ => by decide, .inr ⟨by decide, rfl, rfl⟩, fun _ => by decide, .inl ⟨rfl, rfl⟩⟩, by decide,
    by decide, by decide +kernel⟩

/-- BoundaryInv, Coherent and HostNext in a created state that steps (StepKeepsTheShadowCoherent). -/
theorem witness_coherent :
    let s := presenting (.code (.command 0x30000005)) shown
    BoundaryInv s ∧ Coherent s ∧ HostNext s ∧ isNext (step s) = true :=
  ⟨witness_invariant.1, ⟨fun _ => by decide, fun _ => rfl, fun _ => rfl⟩, by unfold HostNext; decide,
    witness_invariant.2.1⟩

/-- HeardAll after a whole TXA from reset, the next byte presented (StepKeepsTheReceiverInAgreement). -/
theorem witness_heard :
    let s := presenting (.code (.wire 0xC0)) (nextOr shown (exec .wireDataCmd State.reset))
    HeardAll s ∧ isNext (step s) = true :=
  ⟨⟨by decide +kernel, by decide +kernel, by decide +kernel, by decide +kernel⟩, by decide +kernel⟩

/-- Two states that differ in the registers that hold no value before CREATE (RegistersBeforeCreateAreUnobservable). -/
theorem witness_alike :
    State.reset.cfg.Legal ∧
    AlikeBeforeCreate State.reset { State.reset with buf := ⟨9, 9, 9, 9⟩, bright := 7, point := true } :=
  ⟨by decide, ⟨rfl, fun h => by cases h⟩⟩

/-- A step that sets CREATED, and one that clears it (CreatedIsSetByCreateAndClearedByReset, TraceOnlyGrows). -/
theorem witness_created :
    (nextOr opened (step (presenting (.code (.command 0)) State.reset))).created = true ∧
    (nextOr opened (step (presenting .reset shown))).created = false := by decide +kernel

/-- Every host operation and every wire byte answers a next state somewhere (RegistersWrittenOnlyByTheirOperations,
OneStatusForEachHostOperation, SmallStepsReachTheBigStep). -/
theorem witness_all_complete :
    [Instr.create, .showNumber 7, .setDigit 3 9, .setBright 7, .setPoint true, .clear, .wireDataCmd, .wireAddrCmd 3,
      .wireDispCtl 7].all (fun i => isNext (exec i shown)) = true ∧
    isNext (exec (.wireSegData true 0x66) opened) = true := by decide +kernel

/-- EventCounts, EncInvalidOutsideItsDomain and PointBitIsIndependentOfTheDigit at the edges. -/
theorem witness_digits :
    LegalDigit 9 ∧ LegalDigit 0x7F ∧ (15 < (16 : Byte).toNat ∧ (16 : Byte) ≠ 0x7F) ∧ enc 15 false = some 0x71 ∧
    enc 0x7F false = some 0x00 := by decide

/-- DigitWriteDoesItsFiveSteps at the last address, with the last decimal digit and the last the encoder has. -/
theorem witness_dwrite :
    shown.bracket = none ∧ enc 9 shown.point = some 0x6F ∧ enc 15 shown.point = some 0x71 ∧ (0 : Addr) ≠ 3 ∧
    (accept shown).seq = .running 0 := by decide

/-- EveryHostOperationEnds, before CREATE and after it. -/
theorem witness_host_operation_ends :
    (Instr.setDigit 255 65535).isHost = true ∧ idle State.reset = true ∧ State.reset.created = false ∧
    Instr.setDigit 255 65535 ≠ .create ∧ idle shown = true := by decide

/-- DigitsChangeOneAtATime, and SmallStepsLeaveTheWholeState with it: a BRIGHT in a created state, its first address and
the last, and a SETDIGIT with an address left out. -/
theorem witness_in_flight :
    BoundaryInv shown ∧ idle shown = true ∧ shown.created = true ∧
    WritesDigits (.setBright 5) shown [0, 1, 2, 3] (quadGet shown.buf) false 5 ∧
    ([0, 1, 2, 3] : List Addr)[0]? = some 0 ∧ ([0, 1, 2, 3] : List Addr)[3]? = some 3 ∧
    WritesDigits (.setDigit 3 9) shown [3] (fun _ => 9) false 0 ∧ (2 : Addr) ∉ ([3] : List Addr) ∧
    isNext (exec (.setBright 5) shown) = true :=
  ⟨witness_other_orders.1, rfl, rfl, ⟨rfl, rfl, rfl, rfl⟩, rfl, rfl, ⟨rfl, rfl, rfl, rfl, rfl⟩, by decide,
    by decide +kernel⟩

/-- StartAndStopDriveTheLines: lines as a WRBYTE leaves them. -/
theorem witness_stop : shown.clk = .high ∧ shown.dio = .high := by decide

/-- ReceiverHearsExactlyTheFrame: a receiver between brackets with unknown lines. -/
theorem witness_receiver : Receiver.initial.heard = none := rfl

/-- DecodeOfEncodeIsTheInstruction and EncodeOfDecodeIsTheCode. -/
theorem witness_encodings :
    (Instr.showNumber 65535).wellFormed = true ∧ decodeCode .segment (.wire 0xBF) = .ok (.wireSegData true 0x3F) ∧
    decode 0x1000FFFF = .ok (.showNumber 65535) := by decide

end Sys2Proof.Tests
end

section
/-!
PROOFS. The three orders of spec 00_scope.md R6: which fields of the state an operation leaves can depend on them.
First what a host operation that runs leaves when every digit it writes has a code; then that the orders reach that
state through TRACE alone.
-/

namespace Sys2Proof.Machine

/-! What a host operation that runs leaves -/

/-- The frames of one DWRITE of a digit that has a code are 132 events (R104, R164). -/
theorem dwriteFrames_events_length (a : Addr) {v : Byte} {p : Bool} (b : BitVec 3) (hv : (enc v p).isSome = true) :
    ((dwriteFrames a v p b).flatMap frameEvents).length = 132 := by
  obtain ⟨seg, hseg⟩ := Option.isSome_iff_exists.1 hv
  simp [dwriteFrames, hseg, frameEvents_length]

/-- The frames of a loop of such DWRITEs are 132 events for each address (R164). -/
theorem writeFrames_events_length (order : List Addr) (v : Addr → Byte) (p : Bool) (b : BitVec 3)
    (hv : ∀ a, (enc (v a) p).isSome = true) :
    ((writeFrames order v p b).flatMap frameEvents).length = 132 * order.length := by
  induction order with
  | nil => rfl
  | cons a as ih =>
    have split : writeFrames (a :: as) v p b = dwriteFrames a (v a) p b ++ writeFrames as v p b := rfl
    rw [split, List.flatMap_append, List.length_append, dwriteFrames_events_length a b (hv a), ih, List.length_cons]
    omega

/-- A host operation of a block with a legal configuration writes some digit. -/
theorem addrsOf_ne_nil {i : Instr} {s : State} (hi : i.isHost = true) (hc : s.cfg.Legal) : addrsOf i s ≠ [] := by
  obtain ⟨hshow, hclear, hrefresh, -⟩ := hc
  cases i with
  | create => exact perm_ne_nil hclear
  | showNumber n => exact perm_ne_nil hshow
  | setDigit a v => exact List.cons_ne_nil _ _
  | setBright l => exact perm_ne_nil hrefresh
  | setPoint p => exact perm_ne_nil hrefresh
  | clear => exact perm_ne_nil hclear
  | wireDataCmd => cases hi
  | wireAddrCmd a => cases hi
  | wireSegData p seg => cases hi
  | wireDispCtl b => cases hi

/-- Every digit that an operation that runs writes has a code (R31 item 5, R93). -/
theorem digitsOf_encoded {i : Instr} {s : State} (hi : i.isHost = true) (hf : failureOf i s = none)
    (hb : s.created = true → LegalBuf s.buf) (a : Addr) : (enc (digitsOf i s a) (pointAfter i s)).isSome = true :=
  enc_isSome_of_le _ _ (digitsOf_legal hi hf hb a)

/-- An operation that runs emits 132 events for each address it writes (R164). -/
theorem events_length_host {i : Instr} {s : State} (hi : i.isHost = true) (hf : failureOf i s = none)
    (hb : s.created = true → LegalBuf s.buf) : (events i s).length = 132 * (addrsOf i s).length := by
  rw [events_host s hi, opFrames_eq hf, writeFrames_events_length _ _ _ _ (digitsOf_encoded hi hf hb)]

/-- In a state that meets the invariant, an operation that runs leaves the lines at rest, and in BUF and on the chip the
digits it writes, all of them under its point flag and its level (R104, R111 to R122). -/
theorem hostAfter_of_boundaryInv {i : Instr} {s : State} (hi : i.isHost = true) (hf : failureOf i s = none)
    (hinv : BoundaryInv s) (hidle : idle s = true) :
    hostAfter i s = { s with
      created := s.created || i == .create
      bright := brightAfter i s
      point := pointAfter i s
      buf := quadWrites (addrsOf i s) (digitsOf i s) s.buf
      seq := .idle
      clk := .high
      dio := .high
      trace := s.trace ++ events i s
      bracket := none
      chip := ⟨quadWrites (addrsOf i s) (fun a => enc (digitsOf i s a) (pointAfter i s)) s.chip.disp, some true,
        some (brightAfter i s)⟩
      statuses := s.statuses ++ [.ok] } := by
  have hcoded := digitsOf_encoded hi hf hinv.buf
  rw [← hostAfter_eq_writeAll hi hf ((idle_iff s).1 hidle).2,
    writeAll_eq _ _ _ (addrsOf_ne_nil hi hinv.cfg) (fun a _ => hcoded a)]
  simp [answer, finish, accept, events_host s hi, opFrames_eq hf]

/-! The same block under another configuration -/

/-- s under another configuration. -/
def withCfg (c : Config) (s : State) : State := { s with cfg := c }

@[simp] theorem withCfg_cfg (c : Config) (s : State) : (withCfg c s).cfg = c := rfl
@[simp] theorem withCfg_created (c : Config) (s : State) : (withCfg c s).created = s.created := rfl
@[simp] theorem withCfg_bright (c : Config) (s : State) : (withCfg c s).bright = s.bright := rfl
@[simp] theorem withCfg_point (c : Config) (s : State) : (withCfg c s).point = s.point := rfl
@[simp] theorem withCfg_buf (c : Config) (s : State) : (withCfg c s).buf = s.buf := rfl
@[simp] theorem withCfg_seq (c : Config) (s : State) : (withCfg c s).seq = s.seq := rfl
@[simp] theorem withCfg_clk (c : Config) (s : State) : (withCfg c s).clk = s.clk := rfl
@[simp] theorem withCfg_dio (c : Config) (s : State) : (withCfg c s).dio = s.dio := rfl
@[simp] theorem withCfg_trace (c : Config) (s : State) : (withCfg c s).trace = s.trace := rfl
@[simp] theorem withCfg_bracket (c : Config) (s : State) : (withCfg c s).bracket = s.bracket := rfl
@[simp] theorem withCfg_chip (c : Config) (s : State) : (withCfg c s).chip = s.chip := rfl
@[simp] theorem withCfg_statuses (c : Config) (s : State) : (withCfg c s).statuses = s.statuses := rfl
@[simp] theorem withCfg_port (c : Config) (s : State) : (withCfg c s).port = s.port := rfl
@[simp] theorem idle_withCfg (c : Config) (s : State) : idle (withCfg c s) = idle s := rfl

@[simp] theorem brightAfter_withCfg (i : Instr) (c : Config) (s : State) :
    brightAfter i (withCfg c s) = brightAfter i s := by cases i <;> rfl

@[simp] theorem pointAfter_withCfg (i : Instr) (c : Config) (s : State) :
    pointAfter i (withCfg c s) = pointAfter i s := by cases i <;> rfl

@[simp] theorem digitsOf_withCfg (i : Instr) (c : Config) (s : State) :
    digitsOf i (withCfg c s) = digitsOf i s := by cases i <;> rfl

/-- The tests of an operation read SETDIGIT_BLANK_OK of the configuration and nothing else of it (R116, R135). -/
theorem failureOf_withCfg (i : Instr) {c : Config} {s : State} (hok : c.setDigitBlankOk = s.cfg.setDigitBlankOk) :
    failureOf i (withCfg c s) = failureOf i s := by
  cases i with
  | setDigit a v =>
    have htest : operandTest a v (withCfg c s) = operandTest a v s := by simp only [operandTest, withCfg_cfg, hok]
    exact congrArg (firstFailure (createdTest s)) htest
  | _ => rfl

/-- Under two legal configurations an operation writes the same addresses, if in another order (R6). -/
theorem addrsOf_withCfg_perm (i : Instr) {c : Config} {s : State} (hs : s.cfg.Legal) (hc : c.Legal) :
    (addrsOf i (withCfg c s)).Perm (addrsOf i s) := by
  obtain ⟨hshow, hclear, hrefresh, -⟩ := hs
  obtain ⟨hshow', hclear', hrefresh', -⟩ := hc
  cases i with
  | create => exact hclear'.trans hclear.symm
  | showNumber n => exact hshow'.trans hshow.symm
  | setBright l => exact hrefresh'.trans hrefresh.symm
  | setPoint p => exact hrefresh'.trans hrefresh.symm
  | clear => exact hclear'.trans hclear.symm
  | _ => exact .refl _

/-- Another legal configuration still meets the invariant. -/
theorem boundaryInv_withCfg {c : Config} {s : State} (h : BoundaryInv s) (hc : c.Legal) : BoundaryInv (withCfg c s) :=
  ⟨hc, h.buf, h.lines, h.driven, h.place⟩

/-- What a loop leaves does not depend on its order, as it writes each entry with that entry's own value. -/
theorem quadWrites_perm {α : Type} {order order' : List Addr} (h : order.Perm order') (f : Addr → α) (q : Quad α) :
    quadWrites order f q = quadWrites order' f q :=
  quad_ext fun b => by simp only [quadGet_quadWrites, h.mem_iff]

/-- t and u are alike but for the configuration and TRACE, and TRACE is as long in both. -/
def AlikeButOrders (t u : State) : Prop :=
  { u with cfg := t.cfg, trace := t.trace } = t ∧ u.trace.length = t.trace.length

/-- A host operation that runs leaves states alike but for the order of TRACE's events. -/
theorem hostAfter_withCfg {i : Instr} {s : State} {c : Config} (hi : i.isHost = true) (hf : failureOf i s = none)
    (hinv : BoundaryInv s) (hidle : idle s = true) (hc : c.Legal) (hok : c.setDigitBlankOk = s.cfg.setDigitBlankOk) :
    AlikeButOrders (hostAfter i s) (hostAfter i (withCfg c s)) := by
  have hf' : failureOf i (withCfg c s) = none := (failureOf_withCfg i hok).trans hf
  have hinv' := boundaryInv_withCfg hinv hc
  have horder := addrsOf_withCfg_perm i hinv.cfg hc
  have hlength : (events i (withCfg c s)).length = (events i s).length := by
    rw [events_length_host hi hf hinv.buf, events_length_host hi hf' hinv'.buf, horder.length_eq]
  rw [hostAfter_of_boundaryInv hi hf hinv hidle, hostAfter_of_boundaryInv hi hf' hinv' hidle]
  constructor
  · simp [quadWrites_perm horder]
  · simp [hlength]

/-- A host operation reads the orders for TRACE alone: a failed test does not read them, and what runs leaves the same. -/
theorem exec_host_withCfg {i : Instr} {s t : State} {c : Config} (hi : i.isHost = true) (hinv : BoundaryInv s)
    (hc : c.Legal) (hok : c.setDigitBlankOk = s.cfg.setDigitBlankOk) (h : exec i s = .next t) :
    ∃ u, exec i (withCfg c s) = .next u ∧ AlikeButOrders t u := by
  have answers := exec_host i (withCfg c s) hi
  rw [failureOf_withCfg i hok] at answers
  obtain ⟨hidle, ⟨st, hf, rfl⟩ | ⟨hf, rfl⟩⟩ := exec_host_next hi h
  · exact ⟨answer st (withCfg c s), by simp [answers, hidle, hf], rfl, rfl⟩
  · exact ⟨hostAfter i (withCfg c s), by simp [answers, hidle, hf], hostAfter_withCfg hi hf hinv hidle hc hok⟩

/-- A frame does not read the configuration (R84). -/
theorem frame_withCfg (c : Config) {bytes : List Byte} (hb : bytes ≠ []) (s : State) :
    frame bytes (withCfg c s) = withCfg c (frame bytes s) := by
  rw [frame_eq bytes hb, frame_eq bytes hb]
  rfl

/-- A byte in command position does not read the configuration if what it does reads none. -/
theorem wireOp_withCfg {act : State → State} {c : Config} {s t : State}
    (hact : ∀ r, act (withCfg c r) = withCfg c (act r)) (h : wireOp act s = .next t) :
    wireOp act (withCfg c s) = .next (withCfg c t) := by
  obtain ⟨hidle, rfl⟩ := wireOp_next h
  rw [wireOp, idle_withCfg, if_pos hidle]
  exact congrArg _ (hact (accept s))

/-- A wire byte does not read the configuration (R101 to R103). -/
theorem exec_wire_withCfg {i : Instr} {s t : State} (c : Config) (hi : i.isHost = false) (h : exec i s = .next t) :
    exec i (withCfg c s) = .next (withCfg c t) := by
  cases i with
  | wireDataCmd =>
    rw [exec, execWireDataCmd] at h ⊢
    exact wireOp_withCfg (fun r => congrArg finish (frame_withCfg c (List.cons_ne_nil _ _) r)) h
  | wireAddrCmd a =>
    rw [exec, execWireAddrCmd] at h ⊢
    refine wireOp_withCfg (fun r => ?_) h
    rw [start_eq, start_eq, wrByte_eq, wrByte_eq]
    rfl
  | wireSegData p seg =>
    obtain ⟨⟨b, hb⟩, -⟩ := execWireSegData_next h
    rw [exec, execWireSegData_eq p seg b s hb] at h
    rw [exec, execWireSegData_eq p seg b (withCfg c s) hb]
    cases h
    rfl
  | wireDispCtl b =>
    rw [exec, execWireDispCtl] at h ⊢
    exact wireOp_withCfg (fun r => congrArg finish (frame_withCfg c (List.cons_ne_nil _ _) r)) h
  | _ => cases hi

/-- Settles O53: a host operation writes each digit once whatever the order, and a wire byte reads no order. -/
theorem ordersChangeOnlyTheTrace : Obligations.OrdersChangeOnlyTheTrace := by
  intro i s t c hinv hc hok h
  cases hi : i.isHost with
  | true => exact exec_host_withCfg hi hinv hc hok h
  | false => exact ⟨withCfg c t, exec_wire_withCfg c hi h, rfl, rfl⟩

end Sys2Proof.Machine
end

section
/-!
PROOFS. What exec answers with a next state, said once for all ten instructions: a failed test's status, the state of a
host operation that runs, or the state a wire byte leaves.
-/

namespace Sys2Proof.Machine

/-! The wire bytes, with one equation like that of the host operations -/

/-- A wire byte is taken in its place of a frame: a segment byte after the one byte of an open bracket, any other when
the block is idle (R65, R85). -/
def wireReady (i : Instr) (s : State) : Bool :=
  match i.position with
  | .command => idle s
  | .segment => position s == .segment

/-- The stop of a wire byte out of its place (R158, R85). -/
def wireStop (i : Instr) : Host.Outcome State Fault Refusal :=
  match i.position with
  | .command => .fault .operationInProgress
  | .segment => .refused .byteOutsideBracket

/-- SEQ after a wire byte: the address byte leaves its TXB open (R102; log 14). -/
def wireSeq : Instr → Seq
  | .wireAddrCmd _ => .running 31
  | _ => .idle

/-- The bracket after a wire byte (R84, R102). -/
def wireBracket : Instr → Option (List Byte)
  | .wireAddrCmd a => some [addrByte a]
  | _ => none

/-- The shadow after a wire byte: told the frame that the byte ends, if it ends one (R47). -/
def wireChip (i : Instr) (s : State) : Chip :=
  match i with
  | .wireSegData p seg => s.chip.told (s.bracket.getD [] ++ [segByte p seg])
  | .wireDispCtl b => { s.chip with on := some true, bright := some b }
  | _ => s.chip

/-- The state a wire byte leaves. -/
def wireAfter (i : Instr) (s : State) : State :=
  { s with
    trace := s.trace ++ events i s, clk := .high, dio := .high, seq := wireSeq i, bracket := wireBracket i
    chip := wireChip i s }

theorem position_eq_segment {s : State} (h : position s = .segment) : ∃ b, s.bracket = some [b] := by
  unfold position at h
  split at h
  · next b hb => exact ⟨b, hb⟩
  · cases h

/-- What exec answers for a wire byte, in every state (R101 to R103, R85, R158). -/
theorem exec_wire (i : Instr) (s : State) (hi : i.isHost = false) :
    exec i s = if wireReady i s then .next (wireAfter i s) else wireStop i := by
  cases i with
  | wireDataCmd =>
    have he : events .wireDataCmd s = frameEvents [dataCmd] := scriptEvents_frame _
    split
    · next hr => rw [exec, execWireDataCmd_eq s hr, wireAfter, he]; rfl
    · next hr => exact if_neg hr
  | wireAddrCmd a =>
    have he : events (.wireAddrCmd a) s = startEvents ++ wrByteEvents (addrByte a) := by simp [events, script]
    split
    · next hr => rw [exec, execWireAddrCmd_eq a s hr, wireAfter, he]; rfl
    · next hr => exact if_neg hr
  | wireSegData p seg =>
    have he : events (.wireSegData p seg) s = wrByteEvents (segByte p seg) ++ stopEvents := by simp [events, script]
    split
    · next hr =>
      obtain ⟨b, hb⟩ := position_eq_segment (eq_of_beq hr)
      rw [exec, execWireSegData_eq p seg b s hb, wireAfter, he, wireChip, hb]; rfl
    · next hr =>
      rw [exec, execWireSegData]
      split
      · next b hb => exact absurd (by simp [wireReady, Instr.position, position, hb]) hr
      · rfl
  | wireDispCtl b =>
    have he : events (.wireDispCtl b) s = frameEvents [ctrlByte b] := scriptEvents_frame _
    split
    · next hr => rw [exec, execWireDispCtl_eq b s hr, wireAfter, he]; rfl
    · next hr => exact if_neg hr
  | _ => cases hi

/-! All ten instructions -/

/-- The next states that exec answers for i in s: that of a host operation ended by a failed test, that of one that
runs, and that of a wire byte in its place. -/
inductive Answers (i : Instr) (s : State) : State → Prop
  | failed {st : Status} (hi : i.isHost = true) (hidle : idle s = true) (hf : failureOf i s = some st) :
      Answers i s (answer st s)
  | ran (hi : i.isHost = true) (hidle : idle s = true) (hf : failureOf i s = none) : Answers i s (hostAfter i s)
  | sent (hi : i.isHost = false) (hready : wireReady i s = true) : Answers i s (wireAfter i s)

theorem answers_of_exec {i : Instr} {s t : State} (h : exec i s = .next t) : Answers i s t := by
  cases hi : i.isHost with
  | true =>
    obtain ⟨hidle, ⟨st, hf, rfl⟩ | ⟨hf, rfl⟩⟩ := exec_host_next hi h
    · exact .failed hi hidle hf
    · exact .ran hi hidle hf
  | false =>
    rw [exec_wire i s hi] at h
    split at h
    · next hready => cases h; exact .sent hi hready
    · unfold wireStop at h
      split at h <;> cases h

/-- What a wire byte can leave. -/
theorem exec_wire_next {i : Instr} {s t : State} (hi : i.isHost = false) (h : exec i s = .next t) :
    t = wireAfter i s := by
  cases answers_of_exec h with
  | failed hhost => simp [hi] at hhost
  | ran hhost => simp [hi] at hhost
  | sent => rfl

/-! What each step finds presented -/

/-- The reset input is taken from the port (R150). -/
theorem fetch_reset {s s' : State} (h : fetch s = .reset s') : ∃ rest, s.port = .reset :: rest := by
  unfold fetch at h
  split at h
  · cases h
  · next rest hp => exact ⟨rest, hp⟩
  · split at h <;> cases h
  · split at h <;> cases h

/-- The instruction that is run is the one that the presented code decodes to (R65, R69). -/
theorem fetch_run {i : Instr} {s s' : State} (h : fetch s = .run i s') :
    ∃ c rest, s.port = .code c :: rest ∧ decodeCode (position s) c = .ok i := by
  unfold fetch at h
  split at h
  · cases h
  · cases h
  · next w rest hp =>
    split at h
    · next j hj => cases h; exact ⟨.command w, rest, hp, hj⟩
    · cases h
  · next b rest hp =>
    split at h
    · next j hj => cases h; exact ⟨.wire b, rest, hp, hj⟩
    · cases h

end Sys2Proof.Machine
end

section
/-!
PROOFS. What every instruction leaves unchanged, and the invariant that every step keeps (spec 10_state.md R21 to R25,
R28, R31 to R33).
-/

namespace Sys2Proof.Machine

/-! The invariant -/

/-- A loop in an order that is a permutation writes every address (R6). -/
theorem mem_of_perm_allAddrs {order : List Addr} (h : order.Perm allAddrs) (a : Addr) : a ∈ order :=
  h.mem_iff.2 (by revert a; decide)

/-- A host operation that runs leaves a legal BUF: it writes legal digits, and CREATE writes all four (R31 items 1,
5). -/
theorem legalBuf_after_writes {i : Instr} {s : State} (hi : i.isHost = true) (hf : failureOf i s = none)
    (hinv : BoundaryInv s) : LegalBuf (quadWrites (addrsOf i s) (digitsOf i s) s.buf) := by
  intro a
  rw [quadGet_quadWrites]
  split
  · exact digitsOf_legal hi hf hinv.buf a
  · next ha =>
    have hc : i ≠ .create := by
      rintro rfl
      obtain ⟨-, hclear, -⟩ := hinv.cfg
      exact ha (mem_of_perm_allAddrs hclear a)
    exact hinv.buf (failureOf_none hi hf hc) a

/-- A host operation that runs emits some event. -/
theorem events_host_ne_nil {i : Instr} {s : State} (hi : i.isHost = true) (hf : failureOf i s = none)
    (hinv : BoundaryInv s) : events i s ≠ [] := by
  rw [← List.length_pos_iff, events_length_host hi hf hinv.buf]
  have := List.length_pos_iff.2 (addrsOf_ne_nil hi hinv.cfg)
  omega

/-- A wire byte emits some event. -/
theorem events_wire_ne_nil {i : Instr} {s : State} (hi : i.isHost = false) : events i s ≠ [] := by
  cases i with
  | wireDataCmd => simp [events, script, frameEvents, startEvents]
  | wireAddrCmd a => simp [events, script, startEvents]
  | wireSegData p seg => simp [events, script, stopEvents]
  | wireDispCtl b => simp [events, script, frameEvents, startEvents]
  | _ => cases hi

/-- A wire byte leaves the sequencer idle, or after the address byte of a TXB (R102, R31 item 4). -/
theorem wireAfter_place (i : Instr) (s : State) : SequencerPlace (wireAfter i s) := by
  cases i with
  | wireAddrCmd a => exact .inr ⟨rfl, a, rfl⟩
  | _ => exact .inl ⟨rfl, rfl⟩

/-- Every instruction keeps the invariant. -/
theorem exec_keeps_boundaryInv {i : Instr} {s t : State} (hinv : BoundaryInv s) (h : exec i s = .next t) :
    BoundaryInv t := by
  cases answers_of_exec h with
  | failed hi hidle hf => exact ⟨hinv.cfg, hinv.buf, hinv.lines, hinv.driven, hinv.place⟩
  | ran hi hidle hf =>
    have hev : s.trace ++ events i s ≠ [] := by simp [events_host_ne_nil hi hf hinv]
    rw [hostAfter_of_boundaryInv hi hf hinv hidle]
    exact ⟨hinv.cfg, fun _ => legalBuf_after_writes hi hf hinv, .inr ⟨hev, rfl, rfl⟩, fun _ => hev,
      .inl ⟨rfl, rfl⟩⟩
  | sent hi hready =>
    have hev : s.trace ++ events i s ≠ [] := by simp [events_wire_ne_nil hi]
    exact ⟨hinv.cfg, hinv.buf, .inr ⟨hev, rfl, rfl⟩, fun _ => hev, wireAfter_place i s⟩

/-- What is presented is no part of the invariant. -/
theorem boundaryInv_port {s : State} (h : BoundaryInv s) (port : List Input) : BoundaryInv { s with port := port } :=
  ⟨h.cfg, h.buf, h.lines, h.driven, h.place⟩

/-- Settles O45: a pause, the reset input and a refused word keep the invariant field by field, an instruction by
`exec_keeps_boundaryInv`. -/
theorem stepKeepsTheInvariant : Obligations.StepKeepsTheInvariant := by
  intro s t hinv h
  obtain ⟨-, rfl⟩ | ⟨s', hf, -, rfl⟩ | ⟨i, s', hf, hexec⟩ | ⟨s', hf, -, rfl⟩ := step_next h
  · exact hinv
  · obtain rfl := fetch_state (.inl hf)
    exact ⟨hinv.cfg, nofun, .inl ⟨rfl, rfl, rfl⟩, nofun, .inl ⟨rfl, rfl⟩⟩
  · obtain rfl := fetch_state (.inr (.inl ⟨i, hf⟩))
    exact exec_keeps_boundaryInv (boundaryInv_port hinv _) hexec
  · obtain rfl := fetch_state (.inr (.inr hf))
    exact ⟨hinv.cfg, hinv.buf, hinv.lines, hinv.driven, hinv.place⟩

/-- Settles O46: nothing is created or driven yet, and the default orders are permutations (R6, R32). -/
theorem resetMeetsTheInvariant : Obligations.ResetMeetsTheInvariant :=
  ⟨by decide, nofun, .inl ⟨rfl, rfl, rfl⟩, nofun, .inl ⟨rfl, rfl⟩⟩

/-- Settles O39: the definition of the state at reset, field by field (R32, R6). -/
theorem resetLeavesTheValuesOfTheTable : Obligations.ResetLeavesTheValuesOfTheTable :=
  ⟨rfl, rfl, rfl, rfl, rfl, rfl, rfl, rfl, rfl, rfl⟩

/-! The frame of each register -/

section
variable {i : Instr} {s t : State}

/-- No instruction writes the configuration or the port (R25, R33). -/
theorem exec_keeps_cfg_port (h : exec i s = .next t) : t.cfg = s.cfg ∧ t.port = s.port := by
  cases answers_of_exec h <;> exact ⟨rfl, rfl⟩

/-- CREATED after an instruction: as before, or set by CREATE (R24). -/
theorem exec_created (h : exec i s = .next t) : t.created = s.created ∨ (i = .create ∧ t.created = true) := by
  cases answers_of_exec h with
  | failed => exact .inl rfl
  | sent => exact .inl rfl
  | ran =>
    by_cases hc : i = .create
    · exact .inr ⟨hc, by simp [hostAfter, hc]⟩
    · exact .inl (by simp [hostAfter, hc])

/-- BRIGHT is written by CREATE and BRIGHT (R22). -/
theorem exec_keeps_bright (hc : i ≠ .create) (hb : ∀ l, i ≠ .setBright l) (h : exec i s = .next t) :
    t.bright = s.bright := by
  cases answers_of_exec h with
  | failed => rfl
  | sent => rfl
  | ran =>
    cases i with
    | create => exact absurd rfl hc
    | setBright l => exact absurd rfl (hb l)
    | _ => rfl

/-- POINT is written by CREATE and POINT (R23). -/
theorem exec_keeps_point (hc : i ≠ .create) (hp : ∀ p, i ≠ .setPoint p) (h : exec i s = .next t) :
    t.point = s.point := by
  cases answers_of_exec h with
  | failed => rfl
  | sent => rfl
  | ran =>
    cases i with
    | create => exact absurd rfl hc
    | setPoint p => exact absurd rfl (hp p)
    | _ => rfl

/-- A wire byte writes no entry of BUF and yields no status (R100). -/
theorem exec_wire_keeps_buf_statuses (hi : i.isHost = false) (h : exec i s = .next t) :
    t.buf = s.buf ∧ t.statuses = s.statuses := by
  obtain rfl := exec_wire_next hi h
  exact ⟨rfl, rfl⟩

/-- The refresh writes to BUF what BUF holds (R118, R120). -/
theorem exec_refresh_keeps_buf (hd : digitsOf i s = quadGet s.buf) (h : exec i s = .next t) : t.buf = s.buf := by
  cases answers_of_exec h with
  | failed => rfl
  | sent => rfl
  | ran => simp only [hostAfter, bufAfter, hd, quadWrites_same]

/-- SETDIGIT writes the entry at its own address and no other (R116). -/
theorem exec_setDigit_keeps_others {a : BitVec 8} {v : BitVec 16} (h : exec (.setDigit a v) s = .next t) {b : Addr}
    (hb : b.toNat ≠ a.toNat) : quadGet t.buf b = quadGet s.buf b := by
  cases answers_of_exec h with
  | failed => rfl
  | sent hi => cases hi
  | ran hi hidle hf =>
    obtain ⟨ha, -⟩ := (setDigitLegal_iff _ _ _).1 (operandTest_none (firstFailure_none hf).2)
    have hne : b ≠ a.setWidth 2 := by
      rintro rfl
      exact hb (by rw [BitVec.toNat_setWidth]; omega)
    simp [hostAfter, bufAfter, quadGet_quadWrites, addrsOf, hne]

/-- TRACE after an instruction: some events more (R28). -/
theorem exec_trace (h : exec i s = .next t) : ∃ es, t.trace = s.trace ++ es := by
  cases answers_of_exec h with
  | failed => exact ⟨[], (List.append_nil _).symm⟩
  | ran => exact ⟨events i s, rfl⟩
  | sent => exact ⟨events i s, rfl⟩

end

/-- Settles O40: each register's frame lemma in its place. -/
theorem registersWrittenOnlyByTheirOperations : Obligations.RegistersWrittenOnlyByTheirOperations := by
  intro i s t h
  obtain ⟨hcfg, hport⟩ := exec_keeps_cfg_port h
  refine ⟨hcfg, hport, fun hc => ?_, fun hc hb => exec_keeps_bright hc hb h, fun hc hp => exec_keeps_point hc hp h,
    fun hi => exec_wire_keeps_buf_statuses hi h, ?_, ?_, ?_, ?_⟩
  · exact (exec_created h).resolve_right fun hcreate => hc hcreate.1
  · rintro (⟨l, rfl⟩ | ⟨p, rfl⟩)
    · exact exec_refresh_keeps_buf rfl h
    · exact exec_refresh_keeps_buf rfl h
  · rintro a v rfl b hb
    exact exec_setDigit_keeps_others h hb
  · rintro rfl
    obtain rfl := exec_wire_next rfl h
    rfl
  · rintro ⟨a, rfl⟩
    obtain rfl := exec_wire_next rfl h
    rfl

/-! What a step does to CREATED and TRACE -/

/-- The word of CREATE is 0 and no other (R68, R69). -/
theorem decode_create {w : BitVec 32} (h : decode w = .ok .create) : w = 0 := by
  unfold decode at h
  split at h
  · cases h
  · next hz =>
    split at h
    · next hop =>
      split at h
      · next hfields =>
        obtain ⟨ha, hn⟩ := hfields
        rw [← commandWord_fields (not_not.1 hz), hop, ha, hn]
        rfl
      · cases h
    · repeat' split at h
      all_goals cases h

/-- No wire byte is CREATE (R60). -/
theorem decodeWire_ne_create (pos : Position) (b : Byte) : decodeWire pos b ≠ .ok .create := by
  unfold decodeWire
  intro h
  repeat' split at h
  all_goals cases h

/-- What is presented when CREATE is run is the word 0. -/
theorem fetch_create {s s' : State} (h : fetch s = .run .create s') :
    ∃ rest, s.port = .code (.command 0x00000000) :: rest := by
  obtain ⟨c, rest, hp, hd⟩ := fetch_run h
  cases c with
  | command w => exact ⟨rest, by rw [hp, decode_create hd]⟩
  | wire b => exact absurd hd (decodeWire_ne_create _ b)

/-- Settles O41: a step that changes CREATED is the reset input, which clears it, or an instruction, which sets it and
is then CREATE. -/
theorem createdIsSetByCreateAndClearedByReset : Obligations.CreatedIsSetByCreateAndClearedByReset := by
  intro s t h
  by_cases hsame : t.created = s.created
  · exact ⟨fun h0 h1 => by simp [hsame, h0] at h1, fun h1 h0 => by simp [hsame, h1] at h0⟩
  obtain ⟨-, rfl⟩ | ⟨s', hf, -, rfl⟩ | ⟨i, s', hf, hexec⟩ | ⟨s', hf, -, rfl⟩ := step_next h
  · exact absurd rfl hsame
  · exact ⟨fun _ h1 => by simp at h1, fun _ _ => fetch_reset hf⟩
  · obtain rfl := fetch_state (.inr (.inl ⟨i, hf⟩))
    obtain ⟨rfl, hset⟩ := (exec_created hexec).resolve_left hsame
    exact ⟨fun _ _ => fetch_create hf, fun _ h0 => by simp [hset] at h0⟩
  · obtain rfl := fetch_state (.inr (.inr hf))
    exact absurd rfl hsame

/-- Settles O42: an instruction appends its events, the reset input empties TRACE, and the other steps leave it. -/
theorem traceOnlyGrows : Obligations.TraceOnlyGrows := by
  intro s t h
  obtain ⟨-, rfl⟩ | ⟨s', hf, -, rfl⟩ | ⟨i, s', hf, hexec⟩ | ⟨s', hf, -, rfl⟩ := step_next h
  · exact .inl ⟨[], (List.append_nil _).symm⟩
  · exact .inr ⟨fetch_reset hf, rfl⟩
  · obtain rfl := fetch_state (.inr (.inl ⟨i, hf⟩))
    exact .inl (exec_trace (s := { s with port := s.port.tail }) hexec)
  · obtain rfl := fetch_state (.inr (.inr hf))
    exact .inl ⟨[], (List.append_nil _).symm⟩

end Sys2Proof.Machine
end

section
/-!
PROOFS. The small steps of spec 10_state.md R26: an operation's whole script leaves the state that exec answers.
-/

namespace Sys2Proof.Machine

/-- A wire byte's script run whole leaves the state of the big step but for SEQ (R26, R101 to R103). -/
theorem script_run_wire {i : Instr} {s : State} (hi : i.isHost = false) (hready : wireReady i s = true) :
    { runScript (script i s) (accept s) with seq := wireSeq i } = wireAfter i s := by
  cases i with
  | wireDataCmd =>
    simp [script, frame_eq, wireAfter, wireSeq, wireBracket, wireChip, events, accept]
  | wireAddrCmd a =>
    simp [script, start_eq, wrByte_eq, wireAfter, wireSeq, wireBracket, wireChip, events, accept]
  | wireSegData p seg =>
    obtain ⟨b, hb⟩ := position_eq_segment (eq_of_beq hready)
    simp [script, wrByte_eq, stop_eq, wireAfter, wireSeq, wireBracket, wireChip, events, accept, hb]
  | wireDispCtl b =>
    simp [script, frame_eq, wireAfter, wireSeq, wireBracket, wireChip, events, accept]
  | _ => cases hi

/-- An instruction's script run whole leaves what exec answers, but for SEQ and the status (R26, R55). -/
theorem script_run_exec {i : Instr} {s t : State} (h : exec i s = .next t) :
    { runScript (script i s) (accept s) with seq := t.seq, statuses := t.statuses } = t := by
  cases answers_of_exec h with
  | failed hi hidle hf => rw [script_failed hf]; rfl
  | ran hi hidle hf =>
    rw [script_run_host hi hf, ← hostAfter_eq_writeAll hi hf ((idle_iff s).1 hidle).2]
    rfl
  | sent hi hready => rw [← script_run_wire hi hready]

/-- Settles O55: complete, the small steps have run the script whole. -/
theorem smallStepsLeaveTheWholeState : Obligations.SmallStepsLeaveTheWholeState := by
  intro i s t h
  rw [view_complete]
  exact script_run_exec h

/-- After k of its events SEQ of an operation in progress is k (R26). -/
theorem view_ticks_seq {k : Nat} {i : Instr} {s : State} (hk : k ≤ (events i s).length) :
    (InFlight.ticks k (.begin i s)).view.seq = .running k := by
  obtain ⟨-, -, -, hseq⟩ := runScript_lines (scriptUpTo k (script i s)) (accept s)
  have hlen : ((events i s).take k).length = k := List.length_take_of_le hk
  rw [view_ticks, Nat.min_eq_left hk, hseq, scriptEvents_upTo, ← events, hlen]
  simp [Seq.advance]

/-- An operation is complete exactly when all its events are out (R26). -/
theorem ticks_complete_iff {k : Nat} {i : Instr} {s : State} (hk : k ≤ (events i s).length) :
    (InFlight.ticks k (.begin i s)).complete = true ↔ k = (events i s).length := by
  rw [ticks_begin, Nat.min_eq_left hk]
  simp only [InFlight.complete, decide_eq_true_eq]
  omega

/-- Settles O54: SEQ counts the events, and the whole script leaves TRACE and the lines of the big step. -/
theorem smallStepsReachTheBigStep : Obligations.SmallStepsReachTheBigStep := by
  intro i s t h
  have hwhole := smallStepsLeaveTheWholeState i s t h
  exact ⟨fun k hk => ⟨view_ticks_seq hk, ticks_complete_iff hk⟩, (congrArg State.trace hwhole :),
    (congrArg State.clk hwhole :), (congrArg State.dio hwhole :)⟩

end Sys2Proof.Machine
end

section
/-!
PROOFS. What no instruction reads: the lines and TRACE (spec 10_state.md R27, R28), and BUF, BRIGHT and POINT before
CREATE (R32).
-/

namespace Sys2Proof.Machine

/-! The lines and TRACE -/

/-- s with other lines and another TRACE. -/
def withLines (clk dio : Level) (tr : List PinEvent) (s : State) : State :=
  { s with clk := clk, dio := dio, trace := tr }

section
variable (i : Instr) (clk dio : Level) (tr : List PinEvent) (s : State)

@[simp] theorem idle_withLines : idle (withLines clk dio tr s) = idle s := rfl

@[simp] theorem failureOf_withLines : failureOf i (withLines clk dio tr s) = failureOf i s := by cases i <;> rfl

@[simp] theorem wireReady_withLines : wireReady i (withLines clk dio tr s) = wireReady i s := by cases i <;> rfl

@[simp] theorem wireChip_withLines : wireChip i (withLines clk dio tr s) = wireChip i s := by cases i <;> rfl

@[simp] theorem events_withLines : events i (withLines clk dio tr s) = events i s := by cases i <;> rfl

@[simp] theorem opFrames_withLines : opFrames i (withLines clk dio tr s) = opFrames i s := by cases i <;> rfl

@[simp] theorem brightAfter_withLines : brightAfter i (withLines clk dio tr s) = brightAfter i s := by cases i <;> rfl

@[simp] theorem pointAfter_withLines : pointAfter i (withLines clk dio tr s) = pointAfter i s := by cases i <;> rfl

@[simp] theorem bufAfter_withLines : bufAfter i (withLines clk dio tr s) = bufAfter i s := by cases i <;> rfl

end

/-- A line's level after whole frames, if there is one, is 1, whatever it was before (R83). -/
theorem levelAfter_frames {frames : List (List Byte)} (hne : frames ≠ []) (ln : Line) (l : Level) :
    levelAfter ln (frames.flatMap frameEvents) l = .high := by
  obtain ⟨init, last, rfl⟩ := (List.eq_nil_or_concat frames).resolve_left hne
  have split : (init.concat last).flatMap frameEvents =
      (init.flatMap frameEvents ++ (startEvents ++ last.flatMap wrByteEvents)) ++ stopEvents := by
    simp [frameEvents]
  rw [split, levelAfter_stop]

/-- The levels after a host operation that emits anything do not depend on those before it (R27). -/
theorem levelAfter_events {i : Instr} {s : State} (hi : i.isHost = true) (hne : events i s ≠ []) (ln : Line)
    (l l' : Level) : levelAfter ln (events i s) l = levelAfter ln (events i s) l' := by
  rw [events_host s hi] at hne ⊢
  have hframes : opFrames i s ≠ [] := by
    intro h
    exact hne (by rw [h, List.flatMap_nil])
  rw [levelAfter_frames hframes, levelAfter_frames hframes]

/-- Of two states of which one held the TRACE `before` and the other `tr`, t and u are what the same effect leaves: the
same events appended, the same lines if there are any, everything else the same. -/
def SameEffect (before tr : List PinEvent) (t u : State) : Prop :=
  ∃ es, t.trace = before ++ es ∧ u.trace = tr ++ es ∧ (es ≠ [] → u.clk = t.clk ∧ u.dio = t.dio) ∧
    { u with trace := t.trace, clk := t.clk, dio := t.dio } = t

/-- A host operation that runs has the same effect whatever the lines and TRACE. -/
theorem hostAfter_withLines {i : Instr} (hi : i.isHost = true) (clk dio : Level) (tr : List PinEvent) (s : State) :
    SameEffect s.trace tr (hostAfter i s) (hostAfter i (withLines clk dio tr s)) := by
  refine ⟨events i s, rfl, congrArg (tr ++ ·) (events_withLines i clk dio tr s), fun hne => ?_, ?_⟩
  · simp only [hostAfter, events_withLines]
    exact ⟨levelAfter_events hi hne _ _ _, levelAfter_events hi hne _ _ _⟩
  · simp only [hostAfter, brightAfter_withLines, pointAfter_withLines, bufAfter_withLines, opFrames_withLines]
    rfl

/-- A wire byte has the same effect whatever the lines and TRACE. -/
theorem wireAfter_withLines (i : Instr) (clk dio : Level) (tr : List PinEvent) (s : State) :
    SameEffect s.trace tr (wireAfter i s) (wireAfter i (withLines clk dio tr s)) := by
  refine ⟨events i s, rfl, congrArg (tr ++ ·) (events_withLines i clk dio tr s), fun _ => ⟨rfl, rfl⟩, ?_⟩
  simp only [wireAfter, wireChip_withLines]
  rfl

/-- A stop is the same stop. -/
theorem outcomesRelated_wireStop (r : State → State → Prop) (i : Instr) :
    OutcomesRelated r (wireStop i) (wireStop i) := by
  unfold wireStop
  split <;> exact rfl

/-- Settles O52: what decides the outcome, and all of it but TRACE and the lines, is read from the other fields. -/
theorem linesAndTraceAreNeverRead : Obligations.LinesAndTraceAreNeverRead := by
  intro i s clk dio tr
  change OutcomesRelated (SameEffect s.trace tr) (exec i s) (exec i (withLines clk dio tr s))
  cases hi : i.isHost with
  | true =>
    rw [exec_host i s hi, exec_host i _ hi, idle_withLines, failureOf_withLines]
    split
    · cases failureOf i s with
      | some st => exact ⟨[], by simp [answer], by simp [answer, withLines], nofun, rfl⟩
      | none => exact hostAfter_withLines hi clk dio tr s
    · exact rfl
  | false =>
    rw [exec_wire i s hi, exec_wire i _ hi, wireReady_withLines]
    split
    · exact wireAfter_withLines i clk dio tr s
    · exact outcomesRelated_wireStop _ i

/-! BUF, BRIGHT and POINT before CREATE -/

/-- s with other values in BUF, BRIGHT and POINT. -/
def withRegs (buf : Quad Byte) (bright : BitVec 3) (point : Bool) (s : State) : State :=
  { s with buf := buf, bright := bright, point := point }

/-- What a step finds presented, with f done to the state in it. -/
def Fetched.map (f : State → State) : Fetched → Fetched
  | .pause => .pause
  | .reset s => .reset (f s)
  | .run i s => .run i (f s)
  | .reserved s => .reserved (f s)
  | .neverSent => .neverSent

section
variable (q : Quad Byte) (l : BitVec 3) (p : Bool) (s : State)

/-- What is presented does not depend on these registers. -/
theorem fetch_withRegs : fetch (withRegs q l p s) = (fetch s).map (withRegs q l p) := by
  have hport : (withRegs q l p s).port = s.port := rfl
  have hpos : position (withRegs q l p s) = position s := rfl
  unfold fetch
  rw [hport, hpos]
  split
  · rfl
  · rfl
  · split <;> rfl
  · split <;> rfl

variable {s}

theorem alike_withRegs (hc : s.created = false) : AlikeBeforeCreate s (withRegs q l p s) :=
  ⟨rfl, fun h => by simp [hc] at h⟩

/-- CREATE writes all three registers without reading them, so it leaves the same state (R111). -/
theorem hostAfter_create_withRegs (hcfg : s.cfg.Legal) :
    hostAfter .create (withRegs q l p s) = hostAfter .create s := by
  obtain ⟨-, hclear, -⟩ := hcfg
  have hbuf (b : Quad Byte) : quadWrites (s.cfg.clearOrder.filter fun _ => (enc blankDigit false).isSome)
      (fun _ => blankDigit) b = ⟨blankDigit, blankDigit, blankDigit, blankDigit⟩ := by
    simp [quadWrites_all hclear]
  have hsame : bufAfter .create (withRegs q l p s) = bufAfter .create s := (hbuf q).trans (hbuf s.buf).symm
  simp only [hostAfter, hsame]
  rfl

/-- A wire byte neither reads nor writes these registers (R100). -/
theorem wireAfter_withRegs {i : Instr} (hi : i.isHost = false) :
    wireAfter i (withRegs q l p s) = withRegs q l p (wireAfter i s) := by
  cases i with
  | wireDataCmd => rfl
  | wireAddrCmd a => rfl
  | wireSegData point seg => rfl
  | wireDispCtl b => rfl
  | _ => cases hi

/-- Before CREATE no instruction reads these registers: CREATE writes them, every other operation is refused, and a wire
byte has no use for them (R111, R134, R100). -/
theorem exec_withRegs (i : Instr) (hcfg : s.cfg.Legal) (hc : s.created = false) :
    OutcomesRelated AlikeBeforeCreate (exec i s) (exec i (withRegs q l p s)) := by
  cases hi : i.isHost with
  | true =>
    have hidle : idle (withRegs q l p s) = idle s := rfl
    have hfail : failureOf i (withRegs q l p s) = failureOf i s := by cases i <;> rfl
    rw [exec_host i s hi, exec_host i _ hi, hidle, hfail]
    split
    · cases hf : failureOf i s with
      | some st => exact alike_withRegs q l p hc
      | none =>
        have hcreate : i = .create := by
          by_contra hne
          simp [failureOf_none hi hf hne] at hc
        subst hcreate
        change AlikeBeforeCreate _ _
        rw [hostAfter_create_withRegs q l p hcfg]
        exact ⟨rfl, fun _ => rfl⟩
    · exact rfl
  | false =>
    have hready : wireReady i (withRegs q l p s) = wireReady i s := by cases i <;> rfl
    rw [exec_wire i s hi, exec_wire i _ hi, hready, wireAfter_withRegs q l p hi]
    split
    · exact alike_withRegs q l p hc
    · exact outcomesRelated_wireStop _ i

/-- Before CREATE a step does not read these registers. -/
theorem step_withRegs (hcfg : s.cfg.Legal) (hc : s.created = false) :
    OutcomesRelated AlikeBeforeCreate (step s) (step (withRegs q l p s)) := by
  unfold step
  rw [fetch_withRegs]
  cases hf : fetch s with
  | pause => exact alike_withRegs q l p hc
  | reset s' =>
    have hidle : idle (withRegs q l p s') = idle s' := rfl
    simp only [Fetched.map, takeReset, hidle]
    split
    · exact alike_withRegs q l p rfl
    · exact rfl
  | run i s' =>
    obtain rfl := fetch_state (.inr (.inl ⟨i, hf⟩))
    exact exec_withRegs q l p i hcfg hc
  | reserved s' =>
    obtain rfl := fetch_state (.inr (.inr hf))
    have hidle (r : State) : idle (withRegs q l p r) = idle r := rfl
    simp only [Fetched.map, refuseReserved, hostOp, hidle]
    split
    · exact alike_withRegs q l p hc
    · exact rfl
  | neverSent => exact rfl

end

/-- Equal outcomes are related by a reflexive relation. -/
theorem outcomesRelated_refl {r : State → State → Prop} (hr : ∀ s, r s s) (o : Host.Outcome State Fault Refusal) :
    OutcomesRelated r o o := by
  cases o with
  | next s => exact hr s
  | fault f => rfl
  | refused f => rfl

/-- Settles O51: once created the two states are equal; before, they differ in registers that no step reads. -/
theorem registersBeforeCreateAreUnobservable : Obligations.RegistersBeforeCreateAreUnobservable := by
  intro s t hcfg halike
  cases hc : s.created with
  | true =>
    rw [← halike.created hc]
    exact outcomesRelated_refl (fun _ => ⟨rfl, fun _ => rfl⟩) _
  | false =>
    rw [← halike.rest]
    exact step_withRegs t.buf t.bright t.point hcfg hc

end Sys2Proof.Machine
end

section
/-!
PROOFS. The chip shadow agrees with BUF, POINT and BRIGHT once CREATE has run, whatever the host presents (spec
20_memory.md R48).
-/

namespace Sys2Proof.Machine

/-- Every command word that decodes is a host operation (R67, R69). -/
theorem decode_isHost {w : BitVec 32} {i : Instr} (h : decode w = .ok i) : i.isHost = true := by
  unfold decode at h
  repeat' split at h
  all_goals cases h
  all_goals rfl

/-- The instruction that is run is a host operation when what is presented is the host's (R80, R100). -/
theorem isHost_of_fetch_run {i : Instr} {s s' : State} (hn : HostNext s) (h : fetch s = .run i s') :
    i.isHost = true := by
  obtain ⟨c, rest, hp, hd⟩ := fetch_run h
  have hc : (Input.code c).isHosts = true := hn _ (by rw [hp]; rfl)
  cases c with
  | command w => exact decode_isHost hd
  | wire b => cases hc

/-- CREATE writes every address (R111). -/
theorem ne_create_of_not_mem {i : Instr} {s : State} {a : Addr} (hc : s.cfg.Legal) (ha : a ∉ addrsOf i s) :
    i ≠ .create := by
  rintro rfl
  obtain ⟨-, hclear, -⟩ := hc
  exact ha (mem_of_perm_allAddrs hclear a)

/-- An operation that does not write every address leaves POINT as it was: CREATE and POINT write all four (R111,
R120). -/
theorem pointAfter_of_not_mem {i : Instr} {s : State} {a : Addr} (hc : s.cfg.Legal) (ha : a ∉ addrsOf i s) :
    pointAfter i s = s.point := by
  cases i with
  | create => exact absurd rfl (ne_create_of_not_mem hc ha)
  | setPoint p =>
    obtain ⟨-, -, hrefresh, -⟩ := hc
    exact absurd (mem_of_perm_allAddrs hrefresh a) ha
  | _ => rfl

/-- A host operation that runs leaves BUF and the shadow in agreement: an address that it writes holds the code of the
new entry, and any other is as before, with POINT kept (R48, R104). -/
theorem disp_coherent_after_writes {i : Instr} {s : State} (hi : i.isHost = true) (hf : failureOf i s = none)
    (hcfg : s.cfg.Legal) (hcoh : Coherent s) (a : Addr) :
    quadGet (quadWrites (addrsOf i s) (fun a => enc (digitsOf i s a) (pointAfter i s)) s.chip.disp) a =
      enc (quadGet (quadWrites (addrsOf i s) (digitsOf i s) s.buf) a) (pointAfter i s) := by
  rw [quadGet_quadWrites, quadGet_quadWrites]
  split
  · rfl
  · next ha =>
    rw [pointAfter_of_not_mem hcfg ha]
    exact hcoh.disp (failureOf_none hi hf (ne_create_of_not_mem hcfg ha)) a

/-- Every host operation keeps the agreement. -/
theorem exec_keeps_coherent {i : Instr} {s t : State} (hi : i.isHost = true) (hinv : BoundaryInv s)
    (hcoh : Coherent s) (h : exec i s = .next t) : Coherent t := by
  cases answers_of_exec h with
  | failed _ hidle hf => exact ⟨hcoh.disp, hcoh.on, hcoh.bright⟩
  | ran _ hidle hf =>
    rw [hostAfter_of_boundaryInv hi hf hinv hidle]
    exact ⟨fun _ => disp_coherent_after_writes hi hf hinv.cfg hcoh, fun _ => rfl, fun _ => rfl⟩
  | sent hwire => simp [hi] at hwire

/-- Settles O47: a pause and a refused word write nothing, the reset input clears CREATED, and an instruction is a host
operation. -/
theorem stepKeepsTheShadowCoherent : Obligations.StepKeepsTheShadowCoherent := by
  intro s t hinv hcoh hnext h
  have hport (port : List Input) : Coherent { s with port := port } := ⟨hcoh.disp, hcoh.on, hcoh.bright⟩
  obtain ⟨-, rfl⟩ | ⟨s', hf, -, rfl⟩ | ⟨i, s', hf, hexec⟩ | ⟨s', hf, -, rfl⟩ := step_next h
  · exact hcoh
  · exact ⟨nofun, nofun, nofun⟩
  · obtain rfl := fetch_state (.inr (.inl ⟨i, hf⟩))
    exact exec_keeps_coherent (isHost_of_fetch_run hnext hf) (boundaryInv_port hinv _) (hport _) hexec
  · obtain rfl := fetch_state (.inr (.inr hf))
    exact ⟨hcoh.disp, hcoh.on, hcoh.bright⟩

/-- Before CREATE there is nothing to agree (R48). -/
theorem coherent_reset : Coherent State.reset := ⟨nofun, nofun, nofun⟩

/-- Settles O48: CREATE from reset runs, and it sends a blank digit for every address at level 0 (R111). -/
theorem shadowIsCoherentAtResetAndAfterCreate : Obligations.ShadowIsCoherentAtResetAndAfterCreate := by
  have hexec : exec .create State.reset = .next (hostAfter .create State.reset) := exec_host .create State.reset rfl
  refine ⟨coherent_reset, _, hexec, exec_keeps_coherent rfl resetMeetsTheInvariant coherent_reset hexec, ?_⟩
  rw [hostAfter_of_boundaryInv rfl rfl resetMeetsTheInvariant rfl]
  rfl

end Sys2Proof.Machine
end

section
/-!
PROOFS. The receiver of spec 20_memory.md R56: what it makes of the events of frames, and that after every step one that
has listened to all of TRACE is where the block is.
-/

namespace Sys2Proof.Machine

/-! What events tell a receiver -/

/-- A receiver that has heard the bytes `before` of an open bracket, or is between brackets, and listens to the events,
has then heard the frames more and the bytes `after` of an open bracket, or is between brackets. -/
def Tells (es : List PinEvent) (before after : Option (List Byte)) (frames : List (List Byte)) : Prop :=
  ∀ r : Receiver, r.heard = before.map (fun bytes => (bytes, [])) →
    (r.listen es).heard = after.map (fun bytes => (bytes, [])) ∧ (r.listen es).frames = r.frames ++ frames

theorem Tells.nil (before : Option (List Byte)) : Tells [] before before [] :=
  fun r h => ⟨h, (List.append_nil r.frames).symm⟩

theorem Tells.append {es fs : List PinEvent} {b1 b2 b3 : Option (List Byte)} {frames more : List (List Byte)}
    (h1 : Tells es b1 b2 frames) (h2 : Tells fs b2 b3 more) : Tells (es ++ fs) b1 b3 (frames ++ more) := by
  intro r h
  obtain ⟨hheard, hframes⟩ := h1 r h
  rw [listen_append, ← List.append_assoc, ← hframes]
  exact h2 _ hheard

theorem tells_start : Tells startEvents none (some []) [] := by
  intro r h
  rw [listen_start r h]
  exact ⟨rfl, (List.append_nil _).symm⟩

theorem tells_wrByte (b : Byte) (sent : List Byte) : Tells (wrByteEvents b) (some sent) (some (sent ++ [b])) [] := by
  intro r h
  rw [listen_wrByte b sent r h]
  exact ⟨rfl, (List.append_nil _).symm⟩

theorem tells_stop (bytes : List Byte) : Tells stopEvents (some bytes) none [bytes] := by
  intro r h
  rw [listen_stop bytes r h]
  exact ⟨rfl, rfl⟩

theorem tells_wrBytes (bytes sent : List Byte) :
    Tells (bytes.flatMap wrByteEvents) (some sent) (some (sent ++ bytes)) [] := by
  induction bytes generalizing sent with
  | nil => simpa using Tells.nil (some sent)
  | cons b bs ih => simpa using (tells_wrByte b sent).append (ih (sent ++ [b]))

/-- All of a frame but its STOP (R84). -/
theorem tells_start_wrBytes (bytes : List Byte) :
    Tells (startEvents ++ bytes.flatMap wrByteEvents) none (some bytes) [] :=
  tells_start.append (tells_wrBytes bytes [])

/-- Settles O13: in the bracket that START opens the bytes are heard, and STOP ends the frame. -/
theorem receiverHearsExactlyTheFrame : Obligations.ReceiverHearsExactlyTheFrame := by
  intro bytes r h
  obtain ⟨hheard, hframes⟩ := tells_start_wrBytes bytes r h
  rw [frameEvents, listen_append, listen_stop bytes _ hheard, hframes, List.append_nil]

theorem tells_frame (bytes : List Byte) : Tells (frameEvents bytes) none none [bytes] :=
  (tells_start_wrBytes bytes).append (tells_stop bytes)

theorem tells_frames (frames : List (List Byte)) : Tells (frames.flatMap frameEvents) none none frames := by
  induction frames with
  | nil => exact Tells.nil none
  | cons f fs ih => exact (tells_frame f).append ih

/-- A host operation tells a receiver its frames. -/
theorem tells_host {i : Instr} (s : State) (hi : i.isHost = true) : Tells (events i s) none none (opFrames i s) := by
  rw [events_host s hi]
  exact tells_frames _

/-- The frames that a wire byte completes (R84, R101 to R103). -/
def wireFrames (i : Instr) (s : State) : List (List Byte) :=
  match i with
  | .wireDataCmd => [[dataCmd]]
  | .wireSegData p seg => [s.bracket.getD [] ++ [segByte p seg]]
  | .wireDispCtl b => [[ctrlByte b]]
  | _ => []

/-- The shadow after a wire byte is the shadow told the frames that the byte completes (R47). -/
theorem wireChip_eq_told {i : Instr} (s : State) : wireChip i s = (wireFrames i s).foldl Chip.told s.chip := by
  cases i with
  | wireDispCtl b => exact (told_ctrlByte s.chip b).symm
  | _ => rfl

/-- A wire byte in its place tells a receiver the frames that it completes. -/
theorem tells_wire {i : Instr} {s : State} (hi : i.isHost = false) (hready : wireReady i s = true) :
    Tells (events i s) s.bracket (wireBracket i) (wireFrames i s) := by
  have hidle (h : idle s = true) : s.bracket = none := ((idle_iff s).1 h).2
  cases i with
  | wireDataCmd =>
    rw [hidle hready]
    simpa [events, script, wireBracket, wireFrames] using tells_frame [dataCmd]
  | wireAddrCmd a =>
    rw [hidle hready]
    simpa [events, script, wireBracket, wireFrames] using tells_start.append (tells_wrByte (addrByte a) [])
  | wireSegData p seg =>
    obtain ⟨b, hb⟩ := position_eq_segment (eq_of_beq hready)
    simpa [events, script, wireBracket, wireFrames, hb] using
      (tells_wrByte (segByte p seg) [b]).append (tells_stop ([b] ++ [segByte p seg]))
  | wireDispCtl b =>
    rw [hidle hready]
    simpa [events, script, wireBracket, wireFrames] using tells_frame [ctrlByte b]
  | _ => cases hi

/-! The receiver's lines -/

/-- Whatever it makes of an event, the line of it takes the event's level. -/
theorem hear_lines (e : PinEvent) (r : Receiver) :
    (Receiver.hear e r).clk = levelAfter .clk [e] r.clk ∧ (Receiver.hear e r).dio = levelAfter .dio [e] r.dio := by
  obtain ⟨ln, v⟩ := e
  cases ln with
  | clk =>
    simp only [Receiver.hear]
    split
    · next h => simp [levelAfter, h.2, Level.ofBit]
    · exact ⟨rfl, rfl⟩
  | dio =>
    simp only [Receiver.hear]
    split
    · next h => simp [levelAfter, h.2.2, Level.ofBit]
    · split
      · next h => split <;> simp [levelAfter, h.2.2, Level.ofBit]
      · exact ⟨rfl, rfl⟩

/-- A receiver has the levels that the events leave (R27). -/
theorem listen_lines (es : List PinEvent) (r : Receiver) :
    (r.listen es).clk = levelAfter .clk es r.clk ∧ (r.listen es).dio = levelAfter .dio es r.dio := by
  induction es generalizing r with
  | nil => exact ⟨rfl, rfl⟩
  | cons e es ih =>
    obtain ⟨hclk, hdio⟩ := hear_lines e r
    obtain ⟨ihclk, ihdio⟩ := ih (Receiver.hear e r)
    rw [hclk] at ihclk
    rw [hdio] at ihdio
    exact ⟨ihclk, ihdio⟩

/-- Every wire byte leaves the lines at rest (R82, R83). -/
theorem levelAfter_wire {i : Instr} (s : State) (hi : i.isHost = false) (ln : Line) (l : Level) :
    levelAfter ln (events i s) l = .high := by
  cases i with
  | wireDataCmd => simp [events, script, frameEvents, - List.append_assoc]
  | wireAddrCmd a => simp [events, script]
  | wireSegData p seg => simp [events, script]
  | wireDispCtl b => simp [events, script, frameEvents, - List.append_assoc]
  | _ => cases hi

/-! The agreement of the receiver with the block -/

/-- What has been heard stays in agreement when the block emits events that tell a receiver the frames its shadow is
told. -/
theorem heardAll_of_tells {s t : State} {es : List PinEvent} {frames : List (List Byte)} (hs : HeardAll s)
    (htells : Tells es s.bracket t.bracket frames) (htrace : t.trace = s.trace ++ es)
    (hclk : t.clk = levelAfter .clk es s.clk) (hdio : t.dio = levelAfter .dio es s.dio)
    (hchip : t.chip = frames.foldl Chip.told s.chip) : HeardAll t := by
  have hlisten : Receiver.initial.listen t.trace = (Receiver.initial.listen s.trace).listen es := by
    rw [htrace, listen_append]
  obtain ⟨hheard, hframes⟩ := htells _ hs.heard
  obtain ⟨hrclk, hrdio⟩ := listen_lines es (Receiver.initial.listen s.trace)
  refine ⟨?_, ?_, ?_, ?_⟩ <;> rw [hlisten]
  · rw [hrclk, hs.clk, hclk]
  · rw [hrdio, hs.dio, hdio]
  · exact hheard
  · rw [hframes, hchip, ← hs.chip, chipAfter, List.foldl_append]
    rfl

/-- Every instruction keeps the agreement. -/
theorem exec_keeps_heardAll {i : Instr} {s t : State} (hs : HeardAll s) (h : exec i s = .next t) : HeardAll t := by
  cases answers_of_exec h with
  | failed hi hidle hf => exact ⟨hs.clk, hs.dio, hs.heard, hs.chip⟩
  | ran hi hidle hf =>
    have htells : Tells (events i s) s.bracket none (opFrames i s) := by
      rw [((idle_iff s).1 hidle).2]
      exact tells_host s hi
    exact heardAll_of_tells hs htells rfl rfl rfl rfl
  | sent hi hready =>
    exact heardAll_of_tells hs (tells_wire hi hready) rfl (levelAfter_wire s hi .clk s.clk).symm
      (levelAfter_wire s hi .dio s.dio).symm (wireChip_eq_told s)

/-- Settles O50: no event has been heard yet (R46). -/
theorem receiverAgreesAtReset : Obligations.ReceiverAgreesAtReset := ⟨rfl, rfl, rfl, rfl⟩

/-- Settles O49: after the reset input the receiver is as at power-on, a pause and a refused word emit nothing, and an
instruction keeps the agreement by `exec_keeps_heardAll`. -/
theorem stepKeepsTheReceiverInAgreement : Obligations.StepKeepsTheReceiverInAgreement := by
  intro s t hs h
  obtain ⟨-, rfl⟩ | ⟨s', hf, -, rfl⟩ | ⟨i, s', hf, hexec⟩ | ⟨s', hf, -, rfl⟩ := step_next h
  · exact hs
  · exact ⟨rfl, rfl, rfl, rfl⟩
  · obtain rfl := fetch_state (.inr (.inl ⟨i, hf⟩))
    exact exec_keeps_heardAll (s := { s with port := s.port.tail }) ⟨hs.clk, hs.dio, hs.heard, hs.chip⟩ hexec
  · obtain rfl := fetch_state (.inr (.inr hf))
    exact ⟨hs.clk, hs.dio, hs.heard, hs.chip⟩

end Sys2Proof.Machine
end

section
/-!
PROOFS. What the chip has been told inside a host operation (spec 20_memory.md R50, 70_reset_and_hazards.md R161): the
script of DWRITEs cut after k events.
-/

namespace Sys2Proof.Machine

/-! A script of digit writes, cut -/

/-- A script that begins with a frame, cut: inside the frame the shadow is as before, after it the frame is told (R47,
log 19). -/
theorem frameScript_append_upTo_chip (k : Nat) (bytes : List Byte) (rest : List Micro) (s : State) :
    (runScript (scriptUpTo k (frameScript bytes ++ rest)) s).chip =
      if k < 8 + 27 * bytes.length then s.chip
      else (runScript (scriptUpTo (k - (8 + 27 * bytes.length)) rest) (frame bytes s)).chip := by
  rw [scriptUpTo_append, scriptEvents_frame, frameEvents_length]
  split
  · next hk => exact frameScript_upTo_chip k bytes s (by rwa [frameEvents_length])
  · rw [runScript_append, frameScript_run]

/-- The shadow after the first k events of DWRITEs that give address a the segment byte f a at the level b: the TXB of
the j-th is out at 132 j + 97, its TXC at 132 j + 132 (R104). -/
def chipAt (k : Nat) (order : List Addr) (f : Addr → Option Byte) (b : BitVec 3) (c : Chip) : Chip :=
  ⟨quadWrites (order.take ((k + 35) / 132)) f c.disp, if 132 ≤ k then some true else c.on,
    if 132 ≤ k then some b else c.bright⟩

/-- The shadow after one whole DWRITE of a digit that has a code (R104, R47). -/
theorem digitScript_chip (p : Bool) (b : BitVec 3) (a : Addr) {v : Byte} (hv : (enc v p).isSome = true) (s : State) :
    (runScript (digitScript p b a v) s).chip = ⟨quadSet s.chip.disp a (enc v p), some true, some b⟩ := by
  obtain ⟨seg, hseg⟩ := Option.isSome_iff_exists.1 hv
  simp [digitScript, hseg, dwriteFrames, frame_eq, Micro.run]

/-- A script that begins with one DWRITE, cut: before the end of its TXB, between that and the end of its TXC, or after
it. -/
theorem digitScript_append_upTo_chip (k : Nat) (p : Bool) (b : BitVec 3) (a : Addr) {v : Byte}
    (hv : (enc v p).isSome = true) (rest : List Micro) (s : State) :
    (runScript (scriptUpTo k (digitScript p b a v ++ rest)) s).chip =
      if k < 97 then s.chip
      else if k < 132 then { s.chip with disp := quadSet s.chip.disp a (enc v p) }
      else (runScript (scriptUpTo (k - 132) rest) (runScript (digitScript p b a v) s)).chip := by
  obtain ⟨seg, hseg⟩ := Option.isSome_iff_exists.1 hv
  have parts : digitScript p b a v =
      frameScript [dataCmd] ++ (frameScript [addrByte a, seg] ++ (frameScript [ctrlByte b] ++ [.record a v])) := by
    simp [digitScript, hseg, dwriteFrames]
  have record (n : Nat) : scriptUpTo n (.record a v :: rest) = .record a v :: scriptUpTo n rest := rfl
  have cut : (runScript (scriptUpTo k (digitScript p b a v ++ rest)) s).chip =
      if k < 35 then s.chip
      else if k - 35 < 62 then s.chip
      else if k - 35 - 62 < 35 then { s.chip with disp := quadSet s.chip.disp a (some seg) }
      else (runScript (scriptUpTo (k - 35 - 62 - 35) rest) (runScript (digitScript p b a v) s)).chip := by
    simp only [parts, List.append_assoc, frameScript_append_upTo_chip, List.cons_append, List.nil_append, record]
    simp [frame_eq]
  rw [cut, hseg, (by omega : k - 35 - 62 - 35 = k - 132)]
  by_cases h97 : k < 97
  · rw [if_pos h97, if_pos (by omega : k - 35 < 62), ite_self]
  · rw [if_neg h97, if_neg (by omega : ¬ k < 35), if_neg (by omega : ¬ k - 35 < 62)]
    exact if_congr (by omega) rfl rfl

/-- The loop's script, cut after k of its events. -/
theorem writesScript_upTo_chip {k : Nat} {order : List Addr} (hk : k ≤ 132 * order.length) (p : Bool) (b : BitVec 3)
    (v : Addr → Byte) (hv : ∀ a, (enc (v a) p).isSome = true) (s : State) :
    (runScript (scriptUpTo k (writesScript p b order v)) s).chip = chipAt k order (fun a => enc (v a) p) b s.chip := by
  induction order generalizing k s with
  | nil =>
    obtain rfl : k = 0 := by simpa using hk
    rfl
  | cons a as ih =>
    have split : writesScript p b (a :: as) v = digitScript p b a (v a) ++ writesScript p b as v := rfl
    rw [split, digitScript_append_upTo_chip k p b a (hv a)]
    split_ifs with h97 h132
    · have h0 : (k + 35) / 132 = 0 := by omega
      simp [chipAt, h0, quadWrites, show ¬ 132 ≤ k by omega]
    · have h1 : (k + 35) / 132 = 1 := by omega
      simp [chipAt, h1, quadWrites, show ¬ 132 ≤ k by omega]
    · have hnext : (k + 35) / 132 = (k - 132 + 35) / 132 + 1 := by omega
      rw [ih (by rw [List.length_cons] at hk; omega), digitScript_chip p b a (hv a)]
      simp [chipAt, hnext, quadWrites, show 132 ≤ k by omega]

/-- An address of the order holds its new segment byte once its TXB is out, and before that what it held. -/
theorem quadGet_chipAt {k j : Nat} {order : List Addr} {a : Addr} (hnodup : order.Nodup) (hj : order[j]? = some a)
    (f : Addr → Option Byte) (b : BitVec 3) (c : Chip) :
    quadGet (chipAt k order f b c).disp a = if 132 * j + 97 ≤ k then f a else quadGet c.disp a := by
  obtain ⟨hlt, rfl⟩ := List.getElem?_eq_some_iff.1 hj
  have hmem : order[j] ∈ order.take ((k + 35) / 132) ↔ 132 * j + 97 ≤ k := by
    rw [List.mem_take_iff_getElem]
    constructor
    · rintro ⟨n, hn, heq⟩
      have := hnodup.getElem_inj_iff.1 heq
      omega
    · intro h
      exact ⟨j, by omega, rfl⟩
  simp only [chipAt, quadGet_quadWrites, hmem]

/-- An address outside the order is told nothing. -/
theorem quadGet_chipAt_of_not_mem {order : List Addr} {a : Addr} (ha : a ∉ order) (k : Nat) (f : Addr → Option Byte)
    (b : BitVec 3) (c : Chip) : quadGet (chipAt k order f b c).disp a = quadGet c.disp a := by
  have hnot : a ∉ order.take ((k + 35) / 132) := fun h => ha (List.mem_of_mem_take h)
  simp only [chipAt, quadGet_quadWrites, if_neg hnot]

/-! The script of a host operation, cut -/

/-- The register writes that come before the first event of a host operation (R111, R118, R120). -/
def registerWrites : Instr → List Micro
  | .create => [.created, .level 0, .flag false]
  | .setBright l => [.level l]
  | .setPoint p => [.flag p]
  | _ => []

/-- The script of a host operation that runs: its register writes, then its DWRITEs (R26). -/
theorem script_host {i : Instr} {s : State} (hi : i.isHost = true) (hf : failureOf i s = none) :
    script i s =
      registerWrites i ++ writesScript (pointAfter i s) (brightAfter i s) (addrsOf i s) (digitsOf i s) := by
  cases i with
  | create => rfl
  | showNumber n => exact congrArg (scriptUnless · _) hf
  | setDigit a v => exact (congrArg (scriptUnless · _) hf).trans (List.append_nil _).symm
  | setBright l => exact congrArg (scriptUnless · _) hf
  | setPoint p => exact congrArg (scriptUnless · _) hf
  | clear => exact congrArg (scriptUnless · _) hf
  | _ => cases hi

/-- What the shadow holds after k events of a host operation that runs. -/
theorem view_chip_host {i : Instr} {s : State} {k : Nat} (hi : i.isHost = true) (hf : failureOf i s = none)
    (hinv : BoundaryInv s) (hk : k ≤ 132 * (addrsOf i s).length) :
    (InFlight.ticks k (.begin i s)).view.chip =
      chipAt k (addrsOf i s) (fun a => enc (digitsOf i s a) (pointAfter i s)) (brightAfter i s) s.chip := by
  have hquiet : scriptEvents (registerWrites i) = [] := by cases i <;> rfl
  have hopen : Micro.closed ∉ registerWrites i := by cases i <;> simp [registerWrites]
  rw [view_ticks, events_length_host hi hf hinv.buf, Nat.min_eq_left hk, script_host hi hf, scriptUpTo_append, hquiet,
    List.length_nil, if_neg (Nat.not_lt_zero k), Nat.sub_zero, runScript_append,
    writesScript_upTo_chip hk _ _ _ (digitsOf_encoded hi hf hinv.buf), runScript_chip _ _ hopen]
  rfl

/-- A legal configuration has no address twice in an order (R6). -/
theorem addrsOf_nodup (i : Instr) {s : State} (hc : s.cfg.Legal) : (addrsOf i s).Nodup := by
  obtain ⟨hshow, hclear, hrefresh, -⟩ := hc
  have nodup {order : List Addr} (h : order.Perm allAddrs) : order.Nodup := h.nodup_iff.2 (by decide)
  cases i with
  | create => exact nodup hclear
  | showNumber n => exact nodup hshow
  | setDigit a v => exact List.nodup_singleton _
  | setBright l => exact nodup hrefresh
  | setPoint p => exact nodup hrefresh
  | clear => exact nodup hclear
  | _ => exact List.nodup_nil

/-- An operation that is said to write digits is a host operation that passes its tests, and writes those digits. -/
theorem writesDigits_host {i : Instr} {s : State} {order : List Addr} {v : Addr → Byte} {point : Bool}
    {bright : BitVec 3} (hc : i ≠ .create → s.created = true) (h : WritesDigits i s order v point bright) :
    i.isHost = true ∧ failureOf i s = none ∧ order = addrsOf i s ∧ v = digitsOf i s ∧ point = pointAfter i s ∧
      bright = brightAfter i s := by
  have hcreated (hne : i ≠ .create) : createdTest s = none := if_pos (hc hne)
  cases i with
  | create => exact ⟨rfl, rfl, h⟩
  | showNumber n => exact ⟨rfl, hcreated nofun, h⟩
  | setDigit a x =>
    obtain ⟨hlegal, hdigits⟩ := h
    have hoperands : operandTest a x s = none := if_pos hlegal
    refine ⟨rfl, ?_, hdigits⟩
    rw [failureOf, hcreated nofun, hoperands]
    rfl
  | setBright l => exact ⟨rfl, hcreated nofun, h⟩
  | setPoint p => exact ⟨rfl, hcreated nofun, h⟩
  | clear => exact ⟨rfl, hcreated nofun, h⟩
  | _ => exact absurd h id

/-- Settles O56: the shadow inside the operation is that of its DWRITEs cut after k events. -/
theorem digitsChangeOneAtATime : Obligations.DigitsChangeOneAtATime := by
  intro i s order v point bright hinv _ hc hw
  obtain ⟨hi, hf, rfl, rfl, rfl, rfl⟩ := writesDigits_host hc hw
  refine ⟨events_length_host hi hf hinv.buf, fun k hk => ?_⟩
  rw [view_chip_host hi hf hinv hk]
  exact ⟨fun j a hj => quadGet_chipAt (addrsOf_nodup i hinv.cfg) hj _ _ _,
    fun a ha => quadGet_chipAt_of_not_mem ha _ _ _ _, rfl, rfl⟩

end Sys2Proof.Machine
end

section
/-!
PROOFS. Encoding and decoding are inverse to each other, the decoder is the chain of mask tests over the six rows, and
thirteen bytes stand in command position (spec 30_encoding.md R61 to R73).
-/

namespace Sys2Proof

/-! Wire bytes: fixed high bits, and an operand in the low bits -/

/-- Format WA: the six high bits of ADDR_BASE, then the address (R62). -/
theorem addrByte_eq_append (a : Addr) : addrByte a = (0b110000#6 ++ a : BitVec 8) := by
  revert a
  decide

/-- Format WC: the five high bits of CTRL_BASE, then the level (R63). -/
theorem ctrlByte_eq_append (b : BitVec 3) : ctrlByte b = (0b10001#5 ++ b : BitVec 8) := by
  revert b
  decide

/-- A byte with the high bits of ADDR_BASE is the address byte of its low bits (R62). -/
theorem addrByte_extractLsb' {b : Byte} (h : b.extractLsb' 2 6 = 0b110000#6) : addrByte (b.extractLsb' 0 2) = b := by
  rw [addrByte_eq_append, ← h]
  exact BitVec.extractLsb'_append_extractLsb' (w := 6)

/-- A byte with the high bits of CTRL_BASE is the control byte of its low bits (R63). -/
theorem ctrlByte_extractLsb' {b : Byte} (h : b.extractLsb' 3 5 = 0b10001#5) : ctrlByte (b.extractLsb' 0 3) = b := by
  rw [ctrlByte_eq_append, ← h]
  exact BitVec.extractLsb'_append_extractLsb' (w := 5)

/-- Every byte is the segment byte of its high bit and its seven low bits (R64). -/
theorem segByte_extractLsb' (b : Byte) : segByte (b.getLsbD 7) (b.extractLsb' 0 7) = b := by
  have hp : BitVec.ofBool (b.getLsbD 7) = b.extractLsb' 7 1 := by
    apply BitVec.eq_of_getLsbD_eq
    intro i hi
    obtain rfl : i = 0 := by omega
    simp
  rw [segByte, hp]
  exact BitVec.extractLsb'_append_extractLsb' (w := 1)

/-- In segment position the point bit and the segment bits are read back, whatever they are (R64, R65). -/
theorem decodeWire_segByte (p : Bool) (seg : BitVec 7) :
    decodeWire .segment (segByte p seg) = .ok (.wireSegData p seg) := by
  have hp : (segByte p seg).getLsbD 7 = p := by
    rw [segByte, BitVec.getLsbD_append]
    cases p <;> rfl
  have hseg : (segByte p seg).extractLsb' 0 7 = seg := BitVec.extractLsb'_append_eq_right
  simp only [decodeWire, hp, hseg]

/-- The byte that decodes to an instruction in some place is the one it encodes to (R61 to R65). -/
theorem encode_of_decodeWire {pos : Position} {b : Byte} {i : Instr} (h : decodeWire pos b = .ok i) :
    encode i = .wire b := by
  cases pos with
  | segment =>
    cases h
    exact congrArg Code.wire (segByte_extractLsb' b)
  | command =>
    simp only [decodeWire] at h
    split at h
    · next hb => cases h; exact congrArg Code.wire hb.symm
    · split at h
      · next hb => cases h; exact congrArg Code.wire (addrByte_extractLsb' hb)
      · split at h
        · next hb => cases h; exact congrArg Code.wire (ctrlByte_extractLsb' hb)
        · cases h

/-! Command words, decoded from their fields -/

/-- A BRIGHT word's N is its level, the bits above the level being 0 (R68). -/
theorem setWidth_level {n : BitVec 16} (h : n.extractLsb' 3 13 = 0) : (n.extractLsb' 0 3).setWidth 16 = n := by
  have hhigh := congrArg BitVec.toNat h
  apply BitVec.eq_of_toNat_eq
  simp [Nat.shiftRight_eq_div_pow] at hhigh ⊢
  omega

/-- A flag as a number is the lowest bit (R68). -/
theorem toNat_flag {k : Nat} (n : BitVec k) : ((BitVec.ofBool (n.getLsbD 0)).setWidth 16).toNat = n.toNat % 2 := by
  have hflag : (n.getLsbD 0).toNat = n.toNat / 2 ^ 0 % 2 := Nat.toNat_testBit n.toNat 0
  rw [BitVec.toNat_setWidth, BitVec.toNat_ofBool, hflag]
  omega

/-- A POINT word's N is its flag, the bits above the flag being 0 (R68). -/
theorem setWidth_flag {n : BitVec 16} (h : n.extractLsb' 1 15 = 0) :
    (BitVec.ofBool (n.getLsbD 0)).setWidth 16 = n := by
  have hhigh := congrArg BitVec.toNat h
  apply BitVec.eq_of_toNat_eq
  rw [toNat_flag]
  simp [Nat.shiftRight_eq_div_pow] at hhigh
  omega

/-- A word that decodes is the one its instruction encodes to, and the instruction is well formed (R68, R69). -/
theorem encode_of_decode {w : BitVec 32} {i : Instr} (h : decode w = .ok i) :
    encode i = .command w ∧ i.wellFormed = true := by
  unfold decode at h
  split at h
  · cases h
  next hzero =>
  rw [← commandWord_fields (not_not.1 hzero)]
  split at h
  · next hop =>
    split at h
    · next hfields =>
      obtain ⟨ha, hn⟩ := hfields
      cases h
      exact ⟨by rw [hop, ha, hn]; rfl, rfl⟩
    · cases h
  split at h
  · next hop =>
    split at h
    · next ha =>
      cases h
      exact ⟨by rw [hop, ha, encode, BitVec.ofNat_toNat, BitVec.setWidth_eq], decide_eq_true (nField w).isLt⟩
    · cases h
  split at h
  · next hop => cases h; exact ⟨by rw [hop]; rfl, rfl⟩
  split at h
  · next hop =>
    split at h
    · cases h
    next ha =>
    split at h
    · next hn => cases h; exact ⟨by rw [hop, not_not.1 ha, encode, setWidth_level hn], rfl⟩
    · cases h
  split at h
  · next hop =>
    split at h
    · cases h
    next ha =>
    split at h
    · next hn => cases h; exact ⟨by rw [hop, not_not.1 ha, encode, setWidth_flag hn], rfl⟩
    · cases h
  split at h
  · next hop =>
    split at h
    · next hfields =>
      obtain ⟨ha, hn⟩ := hfields
      cases h
      exact ⟨by rw [hop, ha, hn]; rfl, rfl⟩
    · cases h
  · cases h

/-- Settles O1: a format H word's fields are the ones it is made of, and so is a byte's operand. -/
theorem decodeOfEncodeIsTheInstruction : Obligations.DecodeOfEncodeIsTheInstruction := by
  rintro i (hwf | ⟨p, seg, rfl⟩)
  · cases i with
    | create => rfl
    | showNumber n =>
      have hn : n < 65536 := of_decide_eq_true hwf
      simp [encode, decodeCode, decode, Nat.mod_eq_of_lt hn]
    | setDigit a v => simp [encode, decodeCode, decode]
    | setBright l => revert l; decide
    | setPoint p => revert p; decide
    | clear => rfl
    | wireDataCmd => rfl
    | wireAddrCmd a => revert a; decide
    | wireSegData p seg => exact decodeWire_segByte p seg
    | wireDispCtl b => revert b; decide
  · exact decodeWire_segByte p seg

/-- Settles O2: a decoded code is rebuilt from its fields, none of which the decoder drops. -/
theorem encodeOfDecodeIsTheCode : Obligations.EncodeOfDecodeIsTheCode := by
  refine ⟨fun pos c i h => ?_, fun w i h => ⟨(encode_of_decode h).2, Machine.decode_isHost h⟩⟩
  cases c with
  | command w => exact (encode_of_decode h).1
  | wire b => exact encode_of_decodeWire h

/-! The six rows -/

/-- A mask that keeps all bits from bit k up keeps the multiple of 2^k below a word. -/
theorem toNat_of_masked {w v : BitVec 32} (k : Nat) (h : w &&& (BitVec.allOnes 32 <<< k) = v) :
    w.toNat / 2 ^ k * 2 ^ k = v.toNat := by
  have hle := Nat.div_mul_le_self w.toNat (2 ^ k)
  rw [← h, ← BitVec.shiftLeft_ushiftRight, BitVec.toNat_shiftLeft, BitVec.toNat_ushiftRight, Nat.shiftLeft_eq,
    Nat.shiftRight_eq_div_pow]
  omega

/-- A word is a format H word when it is the number that those fields make (R68). -/
theorem commandWord_of_toNat {op : BitVec 4} {a : BitVec 8} {n : BitVec 16} {w : BitVec 32}
    (h : w.toNat = op.toNat * 2 ^ 28 + a.toNat * 2 ^ 16 + n.toNat) : commandWord op a n = w := by
  have hz : zeroField w = 0 := BitVec.eq_of_toNat_eq (by simp [zeroField, Nat.shiftRight_eq_div_pow]; omega)
  have hop : opField w = op := BitVec.eq_of_toNat_eq (by simp [opField, Nat.shiftRight_eq_div_pow]; omega)
  have ha : aField w = a := BitVec.eq_of_toNat_eq (by simp [aField, Nat.shiftRight_eq_div_pow]; omega)
  have hn : nField w = n := BitVec.eq_of_toNat_eq (by simp [nField]; omega)
  rw [← commandWord_fields hz, hop, ha, hn]

/-- A word decodes to a well-formed instruction when it is the number that the fields of its encoding make. -/
theorem decode_of_toNat {i : Instr} {op : BitVec 4} {a : BitVec 8} {n : BitVec 16} {w : BitVec 32}
    (hwf : i.wellFormed = true) (henc : encode i = .command (commandWord op a n))
    (hw : w.toNat = op.toNat * 2 ^ 28 + a.toNat * 2 ^ 16 + n.toNat) : decode w = .ok i := by
  have hdec := decodeOfEncodeIsTheInstruction i (.inl hwf)
  rwa [henc, commandWord_of_toNat hw] at hdec

/-! What the words of each row decode to (R69) -/

section
variable {w : BitVec 32}

theorem decode_createRow (h : w &&& 0xFFFFFFFF = 0x00000000) : decode w = .ok .create := by
  obtain rfl : w = 0 := BitVec.and_allOnes.symm.trans h
  rfl

theorem decode_showNumberRow (h : w &&& 0xFFFF0000 = 0x10000000) :
    decode w = .ok (.showNumber (w.extractLsb' 0 16).toNat) := by
  have hw := toNat_of_masked 16 h
  refine decode_of_toNat (decide_eq_true (w.extractLsb' 0 16).isLt) rfl ?_
  simp at hw ⊢
  omega

theorem decode_setDigitRow (h : w &&& 0xFF000000 = 0x20000000) :
    decode w = .ok (.setDigit (w.extractLsb' 16 8) (w.extractLsb' 0 16)) := by
  have hw := toNat_of_masked 24 h
  refine decode_of_toNat rfl rfl ?_
  simp [Nat.shiftRight_eq_div_pow] at hw ⊢
  omega

theorem decode_setBrightRow (h : w &&& 0xFFFFFFF8 = 0x30000000) :
    decode w = .ok (.setBright (w.extractLsb' 0 3)) := by
  have hw := toNat_of_masked 3 h
  refine decode_of_toNat rfl rfl ?_
  simp at hw ⊢
  omega

theorem decode_setPointRow (h : w &&& 0xFFFFFFFE = 0x40000000) : decode w = .ok (.setPoint (w.getLsbD 0)) := by
  have hw := toNat_of_masked 1 h
  refine decode_of_toNat rfl rfl ?_
  rw [toNat_flag]
  simp at hw ⊢
  omega

theorem decode_clearRow (h : w &&& 0xFFFFFFFF = 0x50000000) : decode w = .ok .clear := by
  obtain rfl : w = 0x50000000 := BitVec.and_allOnes.symm.trans h
  rfl

end

/-- A word that selects a row decodes (R68, R69). -/
theorem decode_of_row {w : BitVec 32} {r : TableRow} (hr : r ∈ commandRows) (h : w &&& r.mask = r.value) :
    ∃ i, decode w = .ok i := by
  simp only [commandRows, List.mem_cons, List.not_mem_nil, or_false] at hr
  obtain rfl | rfl | rfl | rfl | rfl | rfl := hr
  · exact ⟨_, decode_createRow h⟩
  · exact ⟨_, decode_showNumberRow h⟩
  · exact ⟨_, decode_setDigitRow h⟩
  · exact ⟨_, decode_setBrightRow h⟩
  · exact ⟨_, decode_setPointRow h⟩
  · exact ⟨_, decode_clearRow h⟩

/-- The encoding of a well-formed instruction selects the instruction's row (R61 to R64, R68). -/
theorem row_selectedBy_encode {i : Instr} (hwf : i.wellFormed = true) : i.row.selectedBy (encode i) = true := by
  cases i with
  | create => exact Laws.SelectsRow.create hwf
  | showNumber n => exact Laws.SelectsRow.showNumber n hwf
  | setDigit a v => exact Laws.SelectsRow.setDigit a v hwf
  | setBright l => exact Laws.SelectsRow.setBright l hwf
  | setPoint p => exact Laws.SelectsRow.setPoint p hwf
  | clear => exact Laws.SelectsRow.clear hwf
  | wireDataCmd => exact Laws.SelectsRow.wireDataCmd hwf
  | wireAddrCmd a => exact Laws.SelectsRow.wireAddrCmd a hwf
  | wireSegData p seg => exact Laws.SelectsRow.wireSegData p seg hwf
  | wireDispCtl b => exact Laws.SelectsRow.wireDispCtl b hwf

/-- The rows of format H are those of the host operations (R68). -/
theorem row_mem_commandRows {i : Instr} (hi : i.isHost = true) : i.row ∈ commandRows := by
  cases i with
  | wireDataCmd => cases hi
  | wireAddrCmd a => cases hi
  | wireSegData p seg => cases hi
  | wireDispCtl b => cases hi
  | _ => simp [Instr.row, commandRows]

/-- A word that decodes selects the row of its instruction (R68). -/
theorem row_selectedBy_of_decode {w : BitVec 32} {i : Instr} (h : decode w = .ok i) :
    i.row.selectedBy (.command w) = true := by
  obtain ⟨henc, hwf⟩ := encode_of_decode h
  rw [← henc]
  exact row_selectedBy_encode hwf

/-- A row's OP is fixed by its match: every mask keeps the four bits of OP, and no two rows have the same (R68). -/
theorem row_unique {w : BitVec 32} {r r' : TableRow} (hr : r ∈ commandRows) (hr' : r' ∈ commandRows)
    (h : r.selectedBy (.command w) = true) (h' : r'.selectedBy (.command w) = true) : r = r' := by
  have keepsOp : ∀ r ∈ commandRows, r.mask &&& 0xF0000000 = 0xF0000000 := by decide
  have distinct : ∀ r ∈ commandRows, ∀ r' ∈ commandRows,
      r.value &&& 0xF0000000 = r'.value &&& 0xF0000000 → r = r' := by decide
  have op {r : TableRow} (hr : r ∈ commandRows) (h : r.selectedBy (.command w) = true) :
      r.value &&& 0xF0000000 = w &&& 0xF0000000 := by
    rw [← eq_of_beq h, BitVec.and_assoc, keepsOp r hr]
    rfl
  exact distinct r hr r' hr' ((op hr h).trans (op hr' h').symm)

/-- Settles O3: in each row of the chain the decoder's answer is the row's instruction, and a word that decodes selects
some row of the chain. -/
theorem decodeFollowsTheMaskChain : Obligations.DecodeFollowsTheMaskChain := by
  intro w
  split
  · next h => rw [decode_createRow h]; rfl
  split
  · next h => rw [decode_showNumberRow h]; rfl
  split
  · next h => rw [decode_setDigitRow h]; rfl
  split
  · next h => rw [decode_setBrightRow h]; rfl
  split
  · next h => rw [decode_setPointRow h]; rfl
  split
  · next h => rw [decode_clearRow h]; rfl
  next hcreate hshow hdigit hbright hpoint hclear =>
  cases hdec : decode w with
  | error e => rfl
  | ok i =>
    have hi := Machine.decode_isHost hdec
    have hsel : w &&& i.row.mask = i.row.value := eq_of_beq (row_selectedBy_of_decode hdec)
    cases i with
    | create => exact absurd hsel hcreate
    | showNumber n => exact absurd hsel hshow
    | setDigit a v => exact absurd hsel hdigit
    | setBright l => exact absurd hsel hbright
    | setPoint p => exact absurd hsel hpoint
    | clear => exact absurd hsel hclear
    | _ => cases hi

/-- Settles O4: the row of the decoded instruction is the only one selected, and a selected row makes a word decode. -/
theorem eachWordSelectsAtMostOneRow : Obligations.EachWordSelectsAtMostOneRow := by
  intro w
  refine ⟨?_, fun i h => ⟨row_mem_commandRows (Machine.decode_isHost h), row_selectedBy_of_decode h⟩⟩
  cases hdec : decode w with
  | error e =>
    have none_selected : commandRows.filter (fun r => r.selectedBy (.command w)) = [] := by
      refine List.filter_eq_nil_iff.2 fun r hr h => ?_
      obtain ⟨i, hi⟩ := decode_of_row hr (eq_of_beq h)
      cases hdec.symm.trans hi
    rw [none_selected]
    rfl
  | ok i =>
    have hmem := row_mem_commandRows (Machine.decode_isHost hdec)
    have hsel := row_selectedBy_of_decode hdec
    have only_own : commandRows.filter (fun r => r.selectedBy (.command w)) = commandRows.filter (· == i.row) := by
      refine List.filter_congr fun r hr => Bool.eq_iff_iff.2 ?_
      rw [beq_iff_eq]
      exact ⟨fun h => row_unique hr hmem h hsel, fun h => h ▸ hsel⟩
    rw [only_own, ← List.count_eq_length_filter]
    exact List.count_eq_one_of_mem (by decide) hmem

/-! Bytes in command position -/

/-- The bytes with the high bits of ADDR_BASE (R62). -/
theorem addrBits_iff (b : Byte) : b.extractLsb' 2 6 = 0b110000#6 ↔ 0xC0 ≤ b.toNat ∧ b.toNat ≤ 0xC3 := by
  rw [← BitVec.toNat_inj]
  simp [Nat.shiftRight_eq_div_pow]
  omega

/-- The bytes with the high bits of CTRL_BASE (R63). -/
theorem ctrlBits_iff (b : Byte) : b.extractLsb' 3 5 = 0b10001#5 ↔ 0x88 ≤ b.toNat ∧ b.toNat ≤ 0x8F := by
  rw [← BitVec.toNat_inj]
  simp [Nat.shiftRight_eq_div_pow]
  omega

/-- In command position a byte decodes by one of the decoder's three tests (R73). -/
theorem decodeWire_command_isOk_iff (b : Byte) :
    (decodeWire .command b).isOk = true ↔
      b = 0x44 ∨ (0xC0 ≤ b.toNat ∧ b.toNat ≤ 0xC3) ∨ (0x88 ≤ b.toNat ∧ b.toNat ≤ 0x8F) := by
  rw [← addrBits_iff, ← ctrlBits_iff]
  simp only [decodeWire]
  split
  · next h => exact iff_of_true rfl (.inl h)
  split
  · next h => exact iff_of_true rfl (.inr (.inl h))
  split
  · next h => exact iff_of_true rfl (.inr (.inr h))
  · next hdata haddr hctrl => exact iff_of_false nofun (by rintro (h | h | h) <;> contradiction)

/-- Settles O6: the three tests give the thirteen values, and the 256 bytes are counted. -/
theorem thirteenBytesInCommandPosition : Obligations.ThirteenBytesInCommandPosition :=
  ⟨decodeWire_command_isOk_iff, by decide⟩

/-- Settles O5: the decoder evaluated on each word and byte. -/
theorem sampleWordsDecode : Obligations.SampleWordsDecode :=
  ⟨rfl, rfl, rfl, rfl, rfl, rfl, rfl, rfl, rfl, rfl⟩

end Sys2Proof
end

section
/-!
PROOFS. What is sent and what is refused: the frames of host operations (spec 30_encoding.md R65, R73), the display
control byte (R63), and a byte that the block never sends (R73).
-/

namespace Sys2Proof.Machine

/-- Settles O36: no bracket is open, so the byte stands in command position, where it does not decode. -/
theorem neverSentByteIsRefused : Obligations.NeverSentByteIsRefused := by
  intro s b rest hport hbracket hdata haddr hctrl
  have hpos : position s = .command := by rw [position, hbracket]
  cases hdec : decodeWire .command b with
  | ok i =>
    obtain h | h | h := (decodeWire_command_isOk_iff b).1 (by rw [hdec]; rfl)
    · exact absurd h hdata
    · exact absurd h haddr
    · exact absurd h hctrl
  | error e =>
    have hfetch : fetch s = .neverSent := by simp [fetch, hport, hpos, hdec]
    rw [step, hfetch]

/-- Settles O32: what the byte leaves, with no bracket to close (R63, R47). -/
theorem displayControlSendsTransactionC : Obligations.DisplayControlSendsTransactionC := by
  intro b s hidle
  obtain ⟨-, hbracket⟩ := (idle_iff s).1 hidle
  refine ⟨frameEvents_length _, (execWireDispCtl_eq b s hidle).trans ?_⟩
  rw [← hbracket]
  rfl

/-- The address and segment byte of each digit write of an operation that runs. -/
def digitWrites (i : Instr) (s : State) : List (Addr × Byte) :=
  (addrsOf i s).map (fun a => (a, (enc (digitsOf i s a) (pointAfter i s)).getD 0))

/-- What an operation that runs sends is the triple of frames of each digit write (R65, R104). -/
theorem opFrames_eq_digitWrites {i : Instr} {s : State} (hi : i.isHost = true) (hf : failureOf i s = none)
    (hb : s.created = true → LegalBuf s.buf) :
    opFrames i s = (digitWrites i s).flatMap (fun w =>
      [[0x44], [w.1.setWidth 8 ||| 0xC0, w.2], [0x88 + (brightAfter i s).setWidth 8]]) := by
  rw [opFrames_eq hf, writeFrames_eq_sentFrames _ _ _ _ (fun a _ => digitsOf_encoded hi hf hb a), sentFrames,
    digitWrites, List.flatMap_map]

/-- Every segment byte written is that of a legal digit (R73). -/
theorem digitWrites_legal {i : Instr} {s : State} (hi : i.isHost = true) (hf : failureOf i s = none)
    (hb : s.created = true → LegalBuf s.buf) {w : Addr × Byte} (hw : w ∈ digitWrites i s) :
    ∃ v : Byte, LegalDigit v ∧ enc v (pointAfter i s) = some w.2 := by
  obtain ⟨a, -, rfl⟩ := List.mem_map.1 hw
  obtain ⟨seg, hseg⟩ := Option.isSome_iff_exists.1 (digitsOf_encoded hi hf hb a)
  exact ⟨digitsOf i s a, digitsOf_legal hi hf hb a, by rw [hseg]; rfl⟩

/-- Settles O44: an operation that a failed test ends sends nothing, and one that runs sends its digit writes. -/
theorem hostOperationsSendOnlyDigitWrites : Obligations.HostOperationsSendOnlyDigitWrites := by
  intro i s t hi hinv h
  cases answers_of_exec h with
  | failed => exact ⟨[], (List.append_nil _).symm, nofun⟩
  | ran _ _ hf =>
    refine ⟨digitWrites i s, ?_, fun w hw => digitWrites_legal hi hf hinv.buf hw⟩
    rw [hostAfter, events_host s hi, opFrames_eq_digitWrites hi hf hinv.buf]
  | sent hwire => simp [hi] at hwire

end Sys2Proof.Machine
end

section
/-!
PROOFS. The bus primitives (spec 40_bus_primitives.md R81 to R86): the events of a byte as groups of three, the waveform
group by group, and where in it DIO changes.
-/

namespace Sys2Proof.Machine

/-! The events -/

/-- The three events that send one bit (R82). -/
abbrev bitGroup (v : Bool) : List PinEvent := [c0, ⟨.dio, v⟩, c1]

/-- R82's shifting loop sends the n low bits, bit 0 first. -/
theorem bitEvents_eq_groups (n : Nat) (t : Byte) :
    bitEvents n t = (List.range n).flatMap (fun i => bitGroup (t.getLsbD i)) := by
  induction n generalizing t with
  | zero => rfl
  | succ n ih =>
    simp only [bitEvents, ih, List.range_succ_eq_map, List.flatMap_cons, List.flatMap_map, BitVec.getLsbD_ushiftRight,
      Nat.one_add]

/-- The ACK slot is sent as a ninth bit, a 1 (R82). -/
theorem wrByteEvents_eq_groups (b : Byte) :
    wrByteEvents b = [0, 1, 2, 3, 4, 5, 6, 7].flatMap (fun i => bitGroup (b.getLsbD i)) ++ bitGroup true :=
  congrArg (· ++ ackEvents) (bitEvents_eq_groups 8 b)

/-- Settles O10: the events by `wrByteEvents_eq_groups`, the state by what WRBYTE does. -/
theorem wrByteSendsBitsLeastSignificantFirst : Obligations.WrByteSendsBitsLeastSignificantFirst := by
  intro value s
  refine ⟨wrByteEvents_eq_groups value, wrByteEvents_length value, ?_⟩
  rw [wrByte_eq]

/-- Settles O11: START and STOP, each by what it does; after a WRBYTE no event of STOP repeats its line's level. -/
theorem startAndStopDriveTheLines : Obligations.StartAndStopDriveTheLines := by
  intro s
  rw [start_eq, stop_eq]
  refine ⟨rfl, rfl, rfl, rfl, rfl, rfl, fun hclk hdio => ?_⟩
  rw [hclk, hdio]
  rfl

/-- Settles O33: with no bracket open, the place is that of a command byte (R65, R85). -/
theorem segmentByteOutsideItsBracketIsRefused : Obligations.SegmentByteOutsideItsBracketIsRefused := by
  intro p seg s hbracket
  have hpos : position s = .command := by rw [position, hbracket]
  have hready : ¬ wireReady (.wireSegData p seg) s = true := by simp [wireReady, Instr.position, hpos]
  rw [exec_wire _ _ rfl, if_neg hready]
  rfl

/-! The waveform -/

/-- Later events start from the levels that the earlier ones leave (R27). -/
theorem waveform_append (clk dio : Level) (es fs : List PinEvent) :
    waveform clk dio (es ++ fs) =
      waveform clk dio es ++ waveform (levelAfter .clk es clk) (levelAfter .dio es dio) fs := by
  induction es generalizing clk dio with
  | nil => rfl
  | cons e es ih =>
    obtain ⟨ln, v⟩ := e
    cases ln <;> exact congrArg (List.cons _) (ih _ _)

theorem waveform_length (clk dio : Level) (es : List PinEvent) : (waveform clk dio es).length = es.length := by
  induction es generalizing clk dio with
  | nil => rfl
  | cons e es ih =>
    obtain ⟨ln, v⟩ := e
    cases ln <;> exact congrArg Nat.succ (ih _ _)

/-- From one pair of the waveform to the next, DIO changes only while CLK is 0 (R86). -/
def DioChangesAtClkLow (x y : Level × Level) : Prop := x.2 ≠ y.2 → x.1 = .low ∧ y.1 = .low

/-- Events during which, whatever the lines were, DIO changes only while CLK is 0. -/
def KeepsDioAtClkHigh (es : List PinEvent) : Prop :=
  ∀ clk dio, List.IsChain DioChangesAtClkLow ((clk, dio) :: waveform clk dio es)

theorem keepsDioAtClkHigh_nil : KeepsDioAtClkHigh [] := fun _ _ => .singleton _

/-- A drive of CLK leaves DIO as it was. -/
theorem KeepsDioAtClkHigh.clk_cons {es : List PinEvent} (h : KeepsDioAtClkHigh es) (v : Bool) :
    KeepsDioAtClkHigh (⟨.clk, v⟩ :: es) :=
  fun _ _ => .cons_cons (absurd rfl) (h _ _)

/-- One bit drives DIO between its `C0` and its `C1` (R82). -/
theorem KeepsDioAtClkHigh.bitGroup_append {es : List PinEvent} (h : KeepsDioAtClkHigh es) (v : Bool) :
    KeepsDioAtClkHigh (bitGroup v ++ es) :=
  fun _ _ => .cons_cons (absurd rfl) (.cons_cons (fun _ => ⟨rfl, rfl⟩) (h.clk_cons true _ _))

theorem KeepsDioAtClkHigh.bitGroups_append {es : List PinEvent} (h : KeepsDioAtClkHigh es) (vs : List Bool) :
    KeepsDioAtClkHigh (vs.flatMap bitGroup ++ es) := by
  induction vs with
  | nil => exact h
  | cons v vs ih => rw [List.flatMap_cons, List.append_assoc]; exact ih.bitGroup_append v

/-- Within WRBYTE, DIO changes only while CLK is 0 (R86). -/
theorem KeepsDioAtClkHigh.wrByte_append {es : List PinEvent} (h : KeepsDioAtClkHigh es) (b : Byte) :
    KeepsDioAtClkHigh (wrByteEvents b ++ es) := by
  have bits := (h.bitGroup_append true).bitGroups_append ([0, 1, 2, 3, 4, 5, 6, 7].map b.getLsbD)
  rwa [List.flatMap_map, ← List.append_assoc, ← wrByteEvents_eq_groups] at bits

/-- The events of a one-byte frame between START's `D0` and STOP's `D1`: START's `C0`, the byte, and `C0 D0 C1`. -/
def innerEvents (b : Byte) : List PinEvent := c0 :: (wrByteEvents b ++ bitGroup false)

theorem keepsDioAtClkHigh_innerEvents (b : Byte) : KeepsDioAtClkHigh (innerEvents b) :=
  ((keepsDioAtClkHigh_nil.bitGroup_append false).wrByte_append b).clk_cons false

theorem frameEvents_singleton (b : Byte) : frameEvents [b] = [c1, d1, d0] ++ (innerEvents b ++ [d1]) := by
  simp [frameEvents, innerEvents, startEvents, stopEvents]

/-- The waveform of a one-byte frame from the idle lines: START's three pairs with CLK at 1, the inner events, and the
`D1` of STOP. -/
theorem waveform_frame_singleton (b : Byte) :
    waveform .high .high (frameEvents [b]) =
      (.high, .high) :: (.high, .high) :: (.high, .low) ::
        (waveform .high .low (innerEvents b) ++ [(.high, .high)]) := by
  have hclk : levelAfter .clk (innerEvents b) .high = .high := by
    rw [innerEvents, ← List.cons_append, levelAfter_append]
    rfl
  calc waveform .high .high (frameEvents [b])
      = (.high, .high) :: (.high, .high) :: (.high, .low) :: waveform .high .low (innerEvents b ++ [d1]) := by
        rw [frameEvents_singleton]
        rfl
    _ = _ := by
        rw [waveform_append, hclk]
        rfl

/-- Two elements that follow one another in a chain are related. -/
theorem rel_of_isChain_cons {α : Type} {R : α → α → Prop} {a x y : α} {l : List α} {k : Nat}
    (h : List.IsChain R (a :: l)) (hx : (a :: l)[k]? = some x) (hy : l[k]? = some y) : R x y := by
  obtain ⟨hk, rfl⟩ := List.getElem?_eq_some_iff.1 hy
  obtain ⟨_, rfl⟩ := List.getElem?_eq_some_iff.1 hx
  exact List.isChain_iff_getElem.1 h k (by simpa using hk)

/-- In the waveform of a one-byte frame DIO changes while CLK is not 0 only at events 2 and 34 (R86). -/
theorem dioChanges_frame_singleton {b : Byte} {k : Nat} {x y : Level × Level}
    (hx : ((.high, .high) :: waveform .high .high (frameEvents [b]))[k]? = some x)
    (hy : (waveform .high .high (frameEvents [b]))[k]? = some y) : DioChangesAtClkLow x y ∨ k = 2 ∨ k = 34 := by
  rw [waveform_frame_singleton] at hx hy
  match k with
  | 0 | 1 =>
    cases hx
    cases hy
    exact .inl (absurd rfl)
  | 2 => exact .inr (.inl rfl)
  | k + 3 =>
    have hlen : (waveform .high .low (innerEvents b)).length = 31 := by rw [waveform_length]; rfl
    simp only [List.getElem?_cons_succ] at hx hy
    obtain hk | hk | hk := Nat.lt_trichotomy k 31
    · rw [List.getElem?_append_left (by omega)] at hy
      rw [← List.cons_append, List.getElem?_append_left (by rw [List.length_cons]; omega)] at hx
      exact .inl (rel_of_isChain_cons (keepsDioAtClkHigh_innerEvents b .high .low) hx hy)
    · exact .inr (.inr (by omega))
    · rw [List.getElem?_eq_none (by simp [hlen]; omega)] at hy
      cases hy

/-- Settles O12: the table group by group, then the changes of DIO. -/
theorem waveformOfOneByteFrame : Obligations.WaveformOfOneByteFrame := by
  intro v
  refine ⟨?_, fun k x y hx hy hne => (dioChanges_frame_singleton hx hy).imp_left (fun h => h hne)⟩
  rw [waveform_frame_singleton, innerEvents, wrByteEvents_eq_groups]
  rfl

end Sys2Proof.Machine
end

section
/-!
PROOFS. The segment encoder (spec 41_segment_encoder.md R91 to R95): where ENC answers `invalid`, and what the point flag
adds to its result.
-/

namespace Sys2Proof.Machine

/-- R93, from the domain of ENC. -/
theorem enc_eq_none_iff (d : Byte) (p : Bool) : enc d p = none ↔ 15 < d.toNat ∧ d ≠ 0x7F := by
  rw [← Option.not_isSome_iff_eq_none, enc_isSome_iff, not_or, not_le]

/-- Bit 7 of every entry of SEGROM is 0 (R41, R95). -/
theorem segRom_getLsbD_seven (d : BitVec 4) : (segRom d).getLsbD 7 = false := by
  revert d; decide

/-- The point flag adds bit 7 to what ENC answers without it (R91, R95). -/
theorem enc_true_eq_map_enc_false (d : Byte) : enc d true = (enc d false).map (· ||| pointBit) := by
  by_cases hb : d = blankDigit
  · simp [hb, pointBit]
  · by_cases hd : d.toNat ≤ 15 <;> simp [enc, hb, hd]

/-- Without the point flag bit 7 of ENC's result is 0, whatever the digit (R95). -/
theorem enc_false_getLsbD_seven {d seg : Byte} (h : enc d false = some seg) : seg.getLsbD 7 = false := by
  by_cases hb : d = blankDigit
  · rw [hb, enc_blankDigit] at h
    cases h
    rfl
  · by_cases hd : d.toNat ≤ 15
    · simp only [enc, hb, hd, if_true, if_false, Option.some.injEq] at h
      rw [← h, BitVec.getLsbD_or, segRom_getLsbD_seven]
      rfl
    · simp [enc, hb, hd] at h

/-- Settles O7: the sixteen entries evaluated under each flag, and BLANK. -/
theorem encResultTable : Obligations.EncResultTable :=
  ⟨by decide, by decide, enc_blank false, enc_blank true⟩

/-- Settles O8: the complement of ENC's domain, where a DWRITE has no byte to send. -/
theorem encInvalidOutsideItsDomain : Obligations.EncInvalidOutsideItsDomain :=
  ⟨enc_eq_none_iff, fun a d s h15 hblank => dwrite_invalid a d s ((enc_eq_none_iff d s.point).2 ⟨h15, hblank⟩)⟩

/-- Settles O9: no result has bit 7 without the flag, and the flag adds it. -/
theorem pointBitIsIndependentOfTheDigit : Obligations.PointBitIsIndependentOfTheDigit := by
  intro d seg h
  refine ⟨enc_false_getLsbD_seven h, ?_⟩
  rw [enc_true_eq_map_enc_false, h]
  rfl

end Sys2Proof.Machine
end

section
/-!
PROOFS. The three transactions and DWRITE (spec 42_digit_write.md R101 to R104): the wire bytes as what the block sends,
the two bytes of TXB as one frame, and the five steps of a DWRITE.
-/

namespace Sys2Proof.Machine

/-! The wire bytes -/

/-- The segment byte has the point flag as bit 7 and the segments below it (R64). -/
theorem segByte_eq_or (p : Bool) (seg : BitVec 7) :
    segByte p seg = (if p then 0x80 else 0x00) ||| seg.setWidth 8 := by
  revert p seg
  decide

/-- Settles O28: the events of the one-byte frame evaluated, with no bracket to close (R101, R61). -/
theorem dataCommandSendsTransactionA : Obligations.DataCommandSendsTransactionA := by
  intro s hidle
  obtain ⟨-, hbracket⟩ := (idle_iff s).1 hidle
  refine (execWireDataCmd_eq s hidle).trans ?_
  rw [← hbracket]
  rfl

/-- Settles O29: what the address byte leaves (R102, R62). -/
theorem addressCommandOpensTransactionB : Obligations.AddressCommandOpensTransactionB :=
  fun a s hidle => execWireAddrCmd_eq a s hidle

/-- What WIRE.SEGDATA leaves after the address byte of a: the shadow holds the byte at a (R102, R47). -/
theorem exec_wireSegData_after_addrByte (p : Bool) (seg : BitVec 7) (a : Addr) (s : State)
    (h : s.bracket = some [addrByte a]) :
    exec (.wireSegData p seg) s = .next { s with
      trace := s.trace ++ (wrByteEvents (segByte p seg) ++ stopEvents), clk := .high, dio := .high
      seq := .idle, bracket := none
      chip := { s.chip with disp := quadSet s.chip.disp a (some (segByte p seg)) } } := by
  refine (execWireSegData_eq p seg _ s h).trans ?_
  rw [told_addrByte]

/-- Settles O30: the byte closes the bracket that the address byte of a opened (R102, R64, R47). -/
theorem segmentByteClosesTransactionB : Obligations.SegmentByteClosesTransactionB := by
  intro p seg a s hbracket byte
  have hbyte : byte = segByte p seg := (segByte_eq_or p seg).symm
  rw [hbyte]
  exact exec_wireSegData_after_addrByte p seg a s hbracket

/-! TXB as one frame -/

/-- All that TXB(a, d) does: one frame of two bytes, and the shadow holds d at a (R102, R47). -/
theorem txb_eq (a : Addr) (d : Byte) (s : State) :
    txb a d s = { s with
      trace := s.trace ++ frameEvents [addrByte a, d], clk := .high, dio := .high
      seq := s.seq.advance 62, bracket := none
      chip := { s.chip with disp := quadSet s.chip.disp a (some d) } } := by
  rw [txb, frame_eq _ (List.cons_ne_nil _ _), told_addrByte]
  rfl

/-- Settles O31: the state that the address byte leaves has its bracket open, so the segment byte is taken as the second
byte of the same frame (R102, R84). -/
theorem twoBytesMakeTransactionB : Obligations.TwoBytesMakeTransactionB := by
  intro p seg a s hidle byte
  have hbyte : byte = segByte p seg := (segByte_eq_or p seg).symm
  rw [hbyte]
  refine ⟨frameEvents_length _, _, execWireAddrCmd_eq a s hidle, ?_, ?_⟩
  · rw [exec_wireSegData_after_addrByte p seg a _ rfl, txb_eq]
    simp [finish, frameEvents]
  · rw [txb_eq]
    rfl

/-! DWRITE -/

/-- Settles O14: what a DWRITE of an encoded digit does, read off field by field (R104). -/
theorem digitWriteDoesItsFiveSteps : Obligations.DigitWriteDoesItsFiveSteps := by
  intro a value seg s hbracket henc frames
  have hframes : frames = dwriteFrames a value s.point s.bright := by rw [dwriteFrames, henc]; rfl
  have hdwrite := dwrite_eq a value seg s henc
  refine ⟨?_, ?_, ?_, ?_, ?_⟩
  · rw [hframes]
    exact dwriteFrames_events_length a s.bright (by rw [henc]; rfl)
  · rw [hdwrite, hframes, henc, ← hbracket]
  · intro k hk
    rw [hdwrite, hk]
    rfl
  · rw [hdwrite, quadGet_quadSet_same]
  · intro b hb
    rw [hdwrite, quadGet_quadSet, if_neg hb]

end Sys2Proof.Machine
end

section
/-!
PROOFS. What each of the six host operations does (spec 43_host_operations.md): the events, the registers, BUF and the
shadow it leaves, said once for all six; that each comes to its end with one status; and that a step runs the instruction
presented.
-/

namespace Sys2Proof.Machine

/-! The command words, field by field (R68) -/

/-- A format H word is its OP, its A and its N, each shifted to its place: each bit lies in one field alone (R68). -/
theorem commandWord_eq_or (op : BitVec 4) (a : BitVec 8) (n : BitVec 16) :
    commandWord op a n = op.setWidth 32 <<< 28 ||| a.setWidth 32 <<< 16 ||| n.setWidth 32 := by
  apply BitVec.eq_of_getLsbD_eq
  intro i hi
  rw [commandWord_getLsbD]
  grind

/-- A format H word with A = 0 is its OP and its N (R68). -/
theorem commandWord_zero_eq_or (op : BitVec 4) (n : BitVec 16) :
    commandWord op 0 n = op.setWidth 32 <<< 28 ||| n.setWidth 32 :=
  (commandWord_eq_or op 0 n).trans (congrArg (· ||| n.setWidth 32) BitVec.or_zero)

/-! The tests of an operation (R134, R116) -/

theorem createdTest_of_created {s : State} (h : s.created = true) : createdTest s = none := if_pos h

/-- Before CREATE every other host operation is refused, SETDIGIT whatever its operands (R134, R135). -/
theorem failureOf_of_not_created {i : Instr} {s : State} (hi : i.isHost = true) (hc : i ≠ .create)
    (h : s.created = false) : failureOf i s = some (.refused .notCreated) := by
  have htest : createdTest s = some (.refused .notCreated) := by simp [createdTest, h]
  cases i with
  | create => exact absurd rfl hc
  | setDigit a v => rw [failureOf, htest]; rfl
  | showNumber n => exact htest
  | setBright l => exact htest
  | setPoint p => exact htest
  | clear => exact htest
  | wireDataCmd => cases hi
  | wireAddrCmd a => cases hi
  | wireSegData p seg => cases hi
  | wireDispCtl b => cases hi

/-- After CREATE what is left of SETDIGIT's tests is that of its operands (R135). -/
theorem failureOf_setDigit {a : BitVec 8} {v : BitVec 16} {s : State} (h : s.created = true) :
    failureOf (.setDigit a v) s =
      if setDigitLegal s.cfg.setDigitBlankOk a v then none else some .invalidArgument := by
  rw [failureOf, createdTest_of_created h]
  rfl

/-! The frames of a loop (R65, R104) -/

theorem sentFrames_length (order : List Addr) (v : Addr → Byte) (p : Bool) (b : BitVec 3) :
    (sentFrames order v p b).length = 3 * order.length := by
  simp [sentFrames, List.length_flatMap, Nat.mul_comm]

/-- The frames of DWRITEs of digits that have a code are 132 events for each address (R164). -/
theorem sentFrames_events_length (order : List Addr) {v : Addr → Byte} {p : Bool} (b : BitVec 3)
    (hv : ∀ a, (enc (v a) p).isSome = true) :
    ((sentFrames order v p b).flatMap frameEvents).length = 132 * order.length := by
  rw [← writeFrames_eq_sentFrames order v p b (fun a _ => hv a), writeFrames_events_length order v p b hv]

/-! What a host operation in an idle state does -/

/-- An operation that a test ends answers its status and does nothing else (R131, R134). -/
theorem exec_failed {i : Instr} {s : State} {st : Status} (hi : i.isHost = true) (hidle : idle s = true)
    (hf : failureOf i s = some st) : exec i s = .next (answer st s) := by
  rw [exec_host i s hi, if_pos hidle, hf]

/-- An operation that passes its tests runs (R110). -/
theorem exec_ran {i : Instr} {s : State} (hi : i.isHost = true) (hidle : idle s = true) (hf : failureOf i s = none) :
    exec i s = .next (hostAfter i s) := by
  rw [exec_host i s hi, if_pos hidle, hf]

/-- What exec answers for a host operation that passes its tests and writes digits that have a code: the frames of those
digits are sent, BUF and the shadow hold them, and CREATED is 1, which after CREATE it was (R104, R110). -/
theorem exec_writes {i : Instr} {s : State} (hi : i.isHost = true) (hidle : idle s = true) (hf : failureOf i s = none)
    (hne : addrsOf i s ≠ []) (hcoded : ∀ a, (enc (digitsOf i s a) (pointAfter i s)).isSome = true) :
    exec i s = .next (setCreated
      { afterFrames s (sentFrames (addrsOf i s) (digitsOf i s) (pointAfter i s) (brightAfter i s)) with
        bright := brightAfter i s
        point := pointAfter i s
        buf := quadWrites (addrsOf i s) (digitsOf i s) s.buf
        chip := ⟨quadWrites (addrsOf i s) (fun a => enc (digitsOf i s a) (pointAfter i s)) s.chip.disp, some true,
          some (brightAfter i s)⟩
        statuses := s.statuses ++ [.ok] }) := by
  obtain ⟨-, hbracket⟩ := (idle_iff s).1 hidle
  have hcreated : (s.created || i == .create) = true := by
    by_cases hc : i = .create
    · simp [hc]
    · simp [failureOf_none hi hf hc]
  rw [exec_ran hi hidle hf, ← hostAfter_eq_writeAll hi hf hbracket, writeAll_eq _ _ _ hne (fun a _ => hcoded a),
    writeFrames_eq_sentFrames _ _ _ _ (fun a _ => hcoded a), hcreated]
  simp [answer, finish, accept, afterFrames, setCreated, hbracket]

theorem setCreated_of_created {s : State} (h : s.created = true) : setCreated s = s := by
  cases s
  cases h
  rfl

/-- s after an operation that writes the four digits q in the given order under a point flag and a level; CREATED is as
it was. -/
def afterQuad (s : State) (order : List Addr) (q : Quad Byte) (p : Bool) (b : BitVec 3) : State :=
  { afterFrames s (sentFrames order (quadGet q) p b) with
    bright := b
    point := p
    buf := q
    chip := ⟨segmentsOf q p, some true, some b⟩
    statuses := s.statuses ++ [.ok] }

/-- What an operation does that writes all four addresses, the legal digits q: 12 frames of 528 events, and BUF and the
shadow hold q (R111, R113, R118, R120, R122, R164). -/
theorem exec_writes_quad {i : Instr} {s : State} {q : Quad Byte} (hi : i.isHost = true) (hidle : idle s = true)
    (hf : failureOf i s = none) (horder : (addrsOf i s).Perm allAddrs) (hdigits : digitsOf i s = quadGet q)
    (hq : LegalBuf q) :
    let frames := sentFrames (addrsOf i s) (quadGet q) (pointAfter i s) (brightAfter i s)
    frames.length = 12 ∧ (frames.flatMap frameEvents).length = 528 ∧
      exec i s = .next (setCreated (afterQuad s (addrsOf i s) q (pointAfter i s) (brightAfter i s))) := by
  have hcoded (a : Addr) : (enc (quadGet q a) (pointAfter i s)).isSome = true := enc_isSome_of_le _ _ (hq a)
  have hlength : (addrsOf i s).length = 4 := horder.length_eq
  refine ⟨by rw [sentFrames_length, hlength], by rw [sentFrames_events_length _ _ hcoded, hlength], ?_⟩
  rw [exec_writes hi hidle hf (perm_ne_nil horder) (by rwa [hdigits]), hdigits, quadWrites_all horder,
    quadWrites_all horder]
  rfl

/-- The same after CREATE: CREATED is not written again. -/
theorem exec_writes_quad_created {i : Instr} {s : State} {q : Quad Byte} (hi : i.isHost = true)
    (hidle : idle s = true) (hc : s.created = true) (hf : failureOf i s = none)
    (horder : (addrsOf i s).Perm allAddrs) (hdigits : digitsOf i s = quadGet q) (hq : LegalBuf q) :
    let frames := sentFrames (addrsOf i s) (quadGet q) (pointAfter i s) (brightAfter i s)
    frames.length = 12 ∧ (frames.flatMap frameEvents).length = 528 ∧
      exec i s = .next (afterQuad s (addrsOf i s) q (pointAfter i s) (brightAfter i s)) := by
  have hwrites := exec_writes_quad hi hidle hf horder hdigits hq
  rwa [setCreated_of_created (s := afterQuad _ _ _ _ _) hc] at hwrites

/-- Four blank digits (R111, R122). -/
def blankQuad : Quad Byte := ⟨blankDigit, blankDigit, blankDigit, blankDigit⟩

theorem quadGet_blankQuad : quadGet blankQuad = fun _ => blankDigit := by
  funext a
  obtain rfl | rfl | rfl | rfl := addr_cases a <;> rfl

theorem blankQuad_legal : LegalBuf blankQuad := fun a => .inr (congrFun quadGet_blankQuad a)

/-- The segment byte of a blank digit is the point alone (R91). -/
def blankSegment (p : Bool) : Byte := if p then 0x80 else 0x00

theorem segmentsOf_blankQuad (p : Bool) :
    segmentsOf blankQuad p =
      ⟨some (blankSegment p), some (blankSegment p), some (blankSegment p), some (blankSegment p)⟩ := by
  cases p <;> rfl

/-- The frames that blank the four digits (R111, R122). -/
theorem sentFrames_blankQuad (order : List Addr) (p : Bool) (b : BitVec 3) :
    sentFrames order (quadGet blankQuad) p b =
      order.flatMap (fun a => [[0x44], [a.setWidth 8 ||| 0xC0, blankSegment p], [0x88 + b.setWidth 8]]) := by
  rw [quadGet_blankQuad]
  cases p <;> rfl

/-- Settles O16: CREATE runs in every idle state and writes four blank digits with POINT and BRIGHT at 0 (R111). -/
theorem createSetsAndBlanksTheDisplay : Obligations.CreateSetsAndBlanksTheDisplay := by
  refine ⟨rfl, ?_⟩
  intro s hidle hlegal frames
  obtain ⟨-, hclear, -⟩ := hlegal
  have hframes : frames = sentFrames s.cfg.clearOrder (quadGet blankQuad) false 0 :=
    (sentFrames_blankQuad s.cfg.clearOrder false 0).symm
  rw [hframes]
  exact exec_writes_quad (i := .create) rfl hidle rfl hclear quadGet_blankQuad.symm blankQuad_legal

/-- What SHOW does: it writes `showDigits n`, which are legal digits (R113). -/
theorem exec_showNumber (n : Nat) {s : State} (hidle : idle s = true) (hlegal : s.cfg.Legal)
    (hcreated : s.created = true) :
    let frames := sentFrames s.cfg.showOrder (quadGet (showDigits n)) s.point s.bright
    frames.length = 12 ∧ (frames.flatMap frameEvents).length = 528 ∧
      exec (.showNumber n) s = .next (afterQuad s s.cfg.showOrder (showDigits n) s.point s.bright) := by
  obtain ⟨hshow, -⟩ := hlegal
  exact exec_writes_quad_created (i := .showNumber n) rfl hidle hcreated (createdTest_of_created hcreated) hshow rfl
    (showDigits_legal n)

/-- Settles O17: the bands of the statement are those of `showDigits` (R113). -/
theorem showWritesTheDecimalDigits : Obligations.ShowWritesTheDecimalDigits := by
  refine ⟨fun w => ?_, fun n s hidle hlegal hcreated => exec_showNumber n hidle hlegal hcreated⟩
  rw [encode, BitVec.ofNat_toNat, BitVec.setWidth_eq, commandWord_zero_eq_or]
  rfl

/-- SHOW reads nothing of its number but the four digits it shows (R113). -/
theorem exec_showNumber_congr {m n : Nat} (h : showDigits m = showDigits n) (s : State) :
    exec (.showNumber m) s = exec (.showNumber n) s := by
  simp only [exec, execShowNumber, h]

/-- From 1000 on the four values are the four lowest decimal digits (R113, R114). -/
theorem showDigits_of_le {n : Nat} (h : 1000 ≤ n) :
    showDigits n = ⟨BitVec.ofNat 8 (n % 10000 / 1000), BitVec.ofNat 8 (n % 1000 / 100), BitVec.ofNat 8 (n % 100 / 10),
      BitVec.ofNat 8 (n % 10)⟩ := by
  have hthousands : n / 1000 % 10 = n % 10000 / 1000 := by omega
  have hhundreds : n / 100 % 10 = n % 1000 / 100 := by omega
  have htens : n / 10 % 10 = n % 100 / 10 := by omega
  simp only [showDigits, digitOf, hthousands, hhundreds, htens]
  rw [if_neg (by omega), if_neg (by omega), if_neg (by omega)]

/-- Numbers from 1000 on with the same four lowest digits are shown alike (R114). -/
theorem showDigits_congr {m n : Nat} (hm : 1000 ≤ m) (hn : 1000 ≤ n) (h : m % 10000 = n % 10000) :
    showDigits m = showDigits n := by
  have hhundreds : m % 1000 = n % 1000 := by omega
  have htens : m % 100 = n % 100 := by omega
  have hunits : m % 10 = n % 10 := by omega
  rw [showDigits_of_le hm, showDigits_of_le hn, h, hhundreds, htens, hunits]

/-- Settles O18: the four lowest digits are all that SHOW reads of such a number. -/
theorem showTruncatesToTheLowestFourDigits : Obligations.ShowTruncatesToTheLowestFourDigits := by
  intro n s t hn hlegal hcreated hexec
  obtain ⟨hidle, -⟩ := exec_host_next rfl hexec
  obtain ⟨-, -, hshown⟩ := exec_showNumber n hidle hlegal hcreated
  obtain rfl : t = afterQuad s s.cfg.showOrder (showDigits n) s.point s.bright := by simpa [hexec] using hshown
  have hdigits : showDigits n = showDigits (10000 + n % 10000) := showDigits_congr (by omega) (by omega) (by omega)
  exact ⟨showDigits_of_le (by omega), rfl, _, (exec_showNumber_congr hdigits s).symm.trans hexec, rfl⟩

/-- The value of legal operands of SETDIGIT is a legal digit (R116, R31). -/
theorem legalDigit_of_setDigitLegal {ok : Bool} {a : BitVec 8} {v : BitVec 16} (h : setDigitLegal ok a v = true) :
    LegalDigit (v.setWidth 8) := by
  obtain ⟨-, hv | ⟨-, rfl⟩⟩ := (setDigitLegal_iff ok a v).1 h
  · left
    rw [BitVec.toNat_setWidth]
    omega
  · exact .inr rfl

/-- Settles O19: with legal operands one DWRITE of an encoded digit, otherwise the operand test fails (R116, R131). -/
theorem setDigitWritesOneDigit : Obligations.SetDigitWritesOneDigit := by
  refine ⟨fun a v => congrArg Code.command (commandWord_eq_or 2 a v), ?_⟩
  intro a v s hidle hcreated addr value frames
  have hf := failureOf_setDigit (a := a) (v := v) hcreated
  split
  · next hoperands =>
    have hlegal := (setDigitLegal_iff s.cfg.setDigitBlankOk a v).2 hoperands
    rw [if_pos hlegal] at hf
    have hcoded (_ : Addr) : (enc value s.point).isSome = true :=
      enc_isSome_of_le _ _ (legalDigit_of_setDigitLegal hlegal)
    refine ⟨sentFrames_length _ _ _ _, sentFrames_events_length _ _ hcoded, ?_, fun b hb => ⟨?_, ?_⟩⟩
    · rw [exec_writes rfl hidle hf (List.cons_ne_nil _ _) hcoded, setCreated_of_created]
      · rfl
      · exact hcreated
    · rw [quadGet_quadSet, if_neg hb]
    · rw [quadGet_quadSet, if_neg hb]
  · next hoperands =>
    have hillegal : ¬ setDigitLegal s.cfg.setDigitBlankOk a v = true :=
      fun h => hoperands ((setDigitLegal_iff _ a v).1 h)
    rw [if_neg hillegal] at hf
    exact exec_failed rfl hidle hf

/-- Settles O21: BRIGHT writes what BUF holds, under the new level (R118). -/
theorem brightRefreshesAtTheNewLevel : Obligations.BrightRefreshesAtTheNewLevel := by
  refine ⟨by decide, fun l s hidle hlegal hcreated hbuf => ?_⟩
  obtain ⟨-, -, hrefresh, -⟩ := hlegal
  exact exec_writes_quad_created (i := .setBright l) rfl hidle hcreated (createdTest_of_created hcreated) hrefresh rfl
    hbuf

/-- Settles O22: POINT writes what BUF holds, under the new flag (R120). -/
theorem pointRefreshesUnderTheNewFlag : Obligations.PointRefreshesUnderTheNewFlag := by
  refine ⟨by decide, fun p s hidle hlegal hcreated hbuf => ?_⟩
  obtain ⟨-, -, hrefresh, -⟩ := hlegal
  exact exec_writes_quad_created (i := .setPoint p) rfl hidle hcreated (createdTest_of_created hcreated) hrefresh rfl
    hbuf

/-- Settles O23: CLEAR writes four blank digits under the registers as they are (R122). -/
theorem clearBlanksAllFourDigits : Obligations.ClearBlanksAllFourDigits := by
  refine ⟨rfl, ?_⟩
  intro s hidle hlegal hcreated blank frames
  obtain ⟨-, hclear, -⟩ := hlegal
  have hframes : frames = sentFrames s.cfg.clearOrder (quadGet blankQuad) s.point s.bright :=
    (sentFrames_blankQuad s.cfg.clearOrder s.point s.bright).symm
  have hdisp : segmentsOf blankQuad s.point = ⟨some blank, some blank, some blank, some blank⟩ :=
    segmentsOf_blankQuad s.point
  rw [hframes, ← hdisp]
  exact exec_writes_quad_created (i := .clear) rfl hidle hcreated (createdTest_of_created hcreated) hclear
    quadGet_blankQuad.symm blankQuad_legal

/-- Settles O25: a failed test answers its status, the state idle as it was, and an operation that runs ends with OK
(R110, R131, R138). -/
theorem everyHostOperationEnds : Obligations.EveryHostOperationEnds := by
  intro i s hi hidle
  have hrefused (hn : s.created = false) (hc : i ≠ .create) := failureOf_of_not_created hi hc hn
  cases hf : failureOf i s with
  | some st =>
    refine ⟨answer st s, st, exec_failed hi hidle hf, hidle, rfl, ?_, fun hn hc => ?_⟩
    · cases st <;> simp [Status.code]
    · obtain rfl : st = .refused .notCreated := Option.some.inj (hf.symm.trans (hrefused hn hc))
      rfl
  | none =>
    refine ⟨hostAfter i s, .ok, exec_ran hi hidle hf, rfl, rfl, .inl rfl, fun hn hc => ?_⟩
    exact absurd (hf.symm.trans (hrefused hn hc)) nofun

/-- Settles O34: the fetch of a word or a byte that decodes hands on its instruction. -/
theorem stepRunsTheDecodedInstruction : Obligations.StepRunsTheDecodedInstruction := by
  intro s c rest i hport hdecode
  have hfetch : fetch s = .run i { s with port := rest } := by
    cases c with
    | command w =>
      have hword : decode w = .ok i := hdecode
      simp [fetch, hport, hword]
    | wire b =>
      have hbyte : decodeWire (position s) b = .ok i := hdecode
      simp [fetch, hport, hbyte]
  rw [step, hfetch]

end Sys2Proof.Machine
end

section
/-!
PROOFS. How a host operation fails: the tests in their order, and that a failed one answers its status and leaves
everything else as it was (spec 60_exceptions.md R130 to R135).
-/

namespace Sys2Proof.Machine

/-! Each test failed (R135) -/

/-- A word that does not decode is taken from the port and answered, and nothing else happens (R71, R133). -/
theorem step_of_decode_error {s : State} {w : BitVec 32} {rest : List Input} {e : DecodeError}
    (hport : s.port = .code (.command w) :: rest) (hidle : idle s = true) (hdecode : decode w = .error e) :
    step s = .next (answer (.refused .reservedEncoding) { s with port := rest }) := by
  have hfetch : fetch s = .reserved { s with port := rest } := by simp [fetch, hport, hdecode]
  rw [step, hfetch]
  exact if_pos hidle

theorem exec_of_not_created {i : Instr} {s : State} (hi : i.isHost = true) (hc : i ≠ .create) (hidle : idle s = true)
    (hcreated : s.created = false) : exec i s = .next (answer (.refused .notCreated) s) :=
  exec_failed hi hidle (failureOf_of_not_created hi hc hcreated)

/-- SETDIGIT with an operand out of range, or both (R130, R131). -/
theorem exec_setDigit_of_not_legal {a : BitVec 8} {v : BitVec 16} {s : State} (hidle : idle s = true)
    (hcreated : s.created = true) (hillegal : setDigitLegal s.cfg.setDigitBlankOk a v = false) :
    exec (.setDigit a v) s = .next (answer .invalidArgument s) := by
  refine exec_failed rfl hidle ?_
  rw [failureOf_setDigit hcreated, hillegal]
  rfl

/-- The operands that the operand test rejects (R116, R130). -/
theorem setDigitLegal_eq_false_iff (ok : Bool) (a : BitVec 8) (v : BitVec 16) :
    setDigitLegal ok a v = false ↔ 3 < a.toNat ∨ (9 < v.toNat ∧ (ok = false ∨ v ≠ 0x7F)) := by
  rw [← Bool.not_eq_true, setDigitLegal_iff, not_and_or, not_or, not_and_or, not_le, not_le, Bool.not_eq_true]

/-! The obligations -/

/-- Settles O20: the operand test fails, the CREATED test before it having passed. -/
theorem setDigitInvalidLeavesNothingBehind : Obligations.SetDigitInvalidLeavesNothingBehind :=
  fun a v _ hidle hcreated hout =>
    exec_setDigit_of_not_legal hidle hcreated ((setDigitLegal_eq_false_iff _ a v).2 hout)

/-- Settles O24: the CREATED test is the first that each of them makes. -/
theorem refusedBeforeCreate : Obligations.RefusedBeforeCreate :=
  fun _ _ hi hc hidle hcreated => ⟨exec_of_not_created hi hc hidle hcreated, rfl⟩

/-- Settles O27: a word is decoded before its instruction is run, and the instruction tests CREATED before its
operands. -/
theorem testsAreMadeInOrder : Obligations.TestsAreMadeInOrder := by
  intro s w rest hport hidle
  have hrun {i : Instr} (hdecode : decode w = .ok i) : step s = exec i { s with port := rest } :=
    stepRunsTheDecodedInstruction s (.command w) rest i hport hdecode
  refine ⟨?_, ?_, ?_⟩
  · rintro ⟨e, hdecode⟩
    exact step_of_decode_error hport hidle hdecode
  · intro i hdecode hc hcreated
    exact (hrun hdecode).trans (exec_of_not_created (decode_isHost hdecode) hc hidle hcreated)
  · intro a v hdecode hcreated hillegal
    exact (hrun hdecode).trans (exec_setDigit_of_not_legal hidle hcreated hillegal)

/-- Status code 3 is never produced (R70). -/
theorem code_ne_three (st : Status) : st.code ≠ 3 := by
  cases st <;> simp [Status.code]

/-- Settles O43: a failed test answers its status alone, and an operation that runs answers OK. -/
theorem oneStatusForEachHostOperation : Obligations.OneStatusForEachHostOperation := by
  intro i s t hi h
  obtain ⟨-, ⟨st, -, rfl⟩ | ⟨-, rfl⟩⟩ := exec_host_next hi h
  · exact ⟨st, rfl, code_ne_three st, fun _ => rfl⟩
  · exact ⟨.ok, rfl, code_ne_three .ok, fun hfailed => absurd rfl hfailed⟩

/-- Settles O35: a word that decodes selects the row of its instruction, so this one does not decode (R68, R133). -/
theorem reservedWordIsRefused : Obligations.ReservedWordIsRefused := by
  intro s w rest hport hidle hnone
  cases hdecode : decode w with
  | error e => exact ⟨step_of_decode_error hport hidle hdecode, rfl⟩
  | ok i =>
    have hselected : w &&& i.row.mask = i.row.value := eq_of_beq (row_selectedBy_of_decode hdecode)
    exact absurd hselected (hnone i.row (row_mem_commandRows (decode_isHost hdecode)))

end Sys2Proof.Machine
end

section
/-!
PROOFS. The reset input, the pause and an operation in progress (spec 70_reset_and_hazards.md R150, R158, R166), and the
event counts of every unit (R164).
-/

namespace Sys2Proof.Machine

/-! What is presented (R165) -/

/-- A reset input at the head of the port is taken from it (R150). -/
theorem step_of_port_reset {s : State} {rest : List Input} (hport : s.port = .reset :: rest) :
    step s = takeReset { s with port := rest } := by
  have hfetch : fetch s = .reset { s with port := rest } := by simp [fetch, hport]
  rw [step, hfetch]

/-- While an operation is in progress every instruction but a segment byte stops with the fault (R158). -/
theorem exec_of_not_idle {i : Instr} {s : State} (hpos : i.position = .command) (hbusy : idle s = false) :
    exec i s = .fault .operationInProgress := by
  cases hi : i.isHost with
  | true => rw [exec_host i s hi, hbusy]; rfl
  | false =>
    have hready : wireReady i s = false := by rw [wireReady, hpos, hbusy]
    rw [exec_wire i s hi, hready, wireStop, hpos]
    rfl

/-- Settles O26: an instruction by `exec_of_not_idle`; the reset input makes the same test when it is taken. -/
theorem noStepWhileAnOperationIsInProgress : Obligations.NoStepWhileAnOperationIsInProgress := by
  refine ⟨fun i s hpos hbusy => exec_of_not_idle hpos hbusy, fun s rest hport hbusy => ?_⟩
  have hbusy' : ¬ idle { s with port := rest } = true := Bool.eq_false_iff.1 hbusy
  exact (step_of_port_reset hport).trans (if_neg hbusy')

/-- Settles O37: the input is taken, and with the block idle there is no bracket to close. -/
theorem resetInputDoesTheLeast : Obligations.ResetInputDoesTheLeast := by
  intro s rest hport hidle
  have hidle' : idle { s with port := rest } = true := hidle
  obtain ⟨-, hbracket⟩ := (idle_iff s).1 hidle
  rw [step_of_port_reset hport, takeReset, if_pos hidle', hardReset, ← hbracket]
  rfl

/-- Settles O38: the fetch finds a pause. -/
theorem pauseChangesNothing : Obligations.PauseChangesNothing := by
  intro s hport
  have hfetch : fetch s = .pause := by simp [fetch, hport]
  rw [step, hfetch]

/-! The event counts (R164) -/

/-- How many of the events are `C0`, how many `C1`, and how many drive the data line. -/
def lineCounts (es : List PinEvent) : Nat × Nat × Nat := (es.count c0, es.count c1, es.count d0 + es.count d1)

theorem lineCounts_append (es fs : List PinEvent) : lineCounts (es ++ fs) = lineCounts es + lineCounts fs := by
  simp only [lineCounts, List.count_append, Prod.mk_add_mk, add_add_add_comm]

/-- One bit is one event of each kind, whatever its value (R82). -/
theorem lineCounts_bitGroup (v : Bool) : lineCounts (bitGroup v) = (1, 1, 1) := by
  cases v <;> rfl

/-- A byte is nine groups like that of a bit, the ninth its ACK slot (R82). -/
theorem lineCounts_wrByte (b : Byte) : lineCounts (wrByteEvents b) = (9, 9, 9) := by
  simp only [wrByteEvents_eq_groups, lineCounts_append, List.flatMap_cons, List.flatMap_nil, lineCounts_bitGroup]
  rfl

theorem lineCounts_wrBytes (bytes : List Byte) :
    lineCounts (bytes.flatMap wrByteEvents) = (9 * bytes.length, 9 * bytes.length, 9 * bytes.length) := by
  induction bytes with
  | nil => rfl
  | cons b bs ih =>
    simp only [List.flatMap_cons, lineCounts_append, lineCounts_wrByte, ih, Prod.mk_add_mk, List.length_cons,
      Nat.mul_add_one, Nat.add_comm 9]

/-- START and STOP together add two `C0`, two `C1` and four events on the data line (R81, R83, R84). -/
theorem lineCounts_frame (bytes : List Byte) :
    lineCounts (frameEvents bytes) = (2 + 9 * bytes.length, 2 + 9 * bytes.length, 4 + 9 * bytes.length) := by
  have hstart : lineCounts startEvents = (1, 1, 2) := rfl
  have hstop : lineCounts stopEvents = (1, 1, 2) := rfl
  simp only [frameEvents, lineCounts_append, lineCounts_wrBytes, hstart, hstop, Prod.mk_add_mk, Prod.mk.injEq]
  omega

/-- The three frames of a DWRITE of a digit that has a code hold four bytes (R104). -/
theorem lineCounts_dwriteFrames (a : Addr) {v : Byte} {p : Bool} (b : BitVec 3) (hv : (enc v p).isSome = true) :
    lineCounts ((dwriteFrames a v p b).flatMap frameEvents) = (42, 42, 48) := by
  obtain ⟨seg, hseg⟩ := Option.isSome_iff_exists.1 hv
  simp only [dwriteFrames, hseg, List.flatMap_cons, List.flatMap_nil, lineCounts_append, lineCounts_frame]
  rfl

/-- An operation that runs and writes all four addresses emits 528 events (R164). -/
theorem events_length_all {i : Instr} {s : State} (hi : i.isHost = true) (hf : failureOf i s = none)
    (hb : s.created = true → LegalBuf s.buf) (horder : (addrsOf i s).Perm allAddrs) : (events i s).length = 528 := by
  rw [events_length_host hi hf hb, horder.length_eq]
  rfl

/-- An operation that a failed test ends emits nothing (R131, R164). -/
theorem events_failed {i : Instr} {s : State} {st : Status} (hf : failureOf i s = some st) : events i s = [] := by
  rw [events, script_failed hf]
  rfl

/-- After CREATE a SETDIGIT is one DWRITE, or its operand test fails (R116, R164). -/
theorem events_length_setDigit (a : BitVec 8) (v : BitVec 16) {s : State} (hcreated : s.created = true)
    (hbuf : LegalBuf s.buf) :
    (events (.setDigit a v) s).length = if setDigitLegal s.cfg.setDigitBlankOk a v then 132 else 0 := by
  have hf := failureOf_setDigit (a := a) (v := v) hcreated
  split
  · next hlegal =>
    rw [if_pos hlegal] at hf
    exact events_length_host rfl hf (fun _ => hbuf)
  · next hillegal =>
    rw [if_neg hillegal] at hf
    rw [events_failed hf, List.length_nil]

/-- Settles O15: a frame by its bytes, a DWRITE by its frames, an operation by the addresses it writes. -/
theorem eventCounts : Obligations.EventCounts := by
  refine ⟨rfl, rfl, fun b => ⟨wrByteEvents_length b, frameEvents_length [b]⟩, fun b d => frameEvents_length [b, d],
    ?_, ?_⟩
  · intro a v p b hv es
    have hcoded := enc_isSome_of_le v p hv
    have hcounts : (es.count c0, es.count c1, es.count d0 + es.count d1) = (42, 42, 48) :=
      lineCounts_dwriteFrames a b hcoded
    simp only [Prod.mk.injEq] at hcounts
    obtain ⟨hc0, hc1, hd⟩ := hcounts
    exact ⟨hc0, hc1, hd, dwriteFrames_events_length a b hcoded⟩
  · intro s hlegal hcreated hbuf
    obtain ⟨hshow, hclear, hrefresh, -⟩ := hlegal
    have hf := createdTest_of_created hcreated
    have hb (_ : s.created = true) : LegalBuf s.buf := hbuf
    exact ⟨fun n => events_length_all (i := .showNumber n) rfl hf hb hshow,
      fun l => events_length_all (i := .setBright l) rfl hf hb hrefresh,
      fun p => events_length_all (i := .setPoint p) rfl hf hb hrefresh,
      events_length_all (i := .create) rfl rfl hb hclear, events_length_all (i := .clear) rfl hf hb hclear,
      fun a v => events_length_setDigit a v hcreated hbuf⟩

end Sys2Proof.Machine
end
